-- ==== Sys2Proof/Word.lean ====
section
/-! DEFINITION. The widths of the machine: what a bus value, an address and a control word are
(spec/00_scope.md R5 and R6, spec/30_encoding.md R48). -/

namespace Sys2Proof

/-- An 8-bit value: what the bus, the accumulator, the instruction register and a memory cell
hold (R5). -/
abbrev Byte := BitVec 8

/-- An 8-bit address: what `PC` and `MAR` hold (R6). -/
abbrev Addr := BitVec 8

/-- A control word, `CW[14:0]`: one bit for each of the fifteen control lines (R47, R48). -/
abbrev ControlWord := BitVec 15

end Sys2Proof
end

