-- ==== Sys2Proof/Syntax.lean ====
section
/-! DEFINITION. The syntax: the six instructions of the opcode table, the fifteen control lines,
the entries of a decoder table, the memory image and the assembler's statements. -/

namespace Sys2Proof

/-- The six instructions, one constructor per row of spec/opcode_table.json
(spec/30_encoding.md R54). The operand byte of the two-byte format is unsigned, not extended,
scaled or shifted (R53). -/
inductive Instr where
  /-- `LDI imm8`, load-literal (R103). -/
  | ldi (imm : Byte)
  /-- `ADI imm8`, add-literal (R104). -/
  | adi (imm : Byte)
  /-- `INC`, increment-accumulator (R105). -/
  | inc
  /-- `JMP imm8`, jump to an absolute address (R106). -/
  | jmp (target : Byte)
  /-- `JZ`, jump-if-accumulator-zero, destructive: skips one byte when `ZF` is set (R107). -/
  | jz
  /-- `HLT`, halt (R108). -/
  | hlt
deriving DecidableEq, Repr

/-- The fifteen control lines (R47), listed in the order of their bit positions (R48). -/
inductive ControlLine where
  /-- program-counter-out -/
  | pco
  /-- program-counter-increment -/
  | pcinc
  /-- memory-address-register-in -/
  | mari
  /-- memory-out -/
  | mo
  /-- accumulator-load -/
  | accl
  /-- accumulator-add -/
  | acca
  /-- accumulator-out -/
  | acco
  /-- instruction-register-in -/
  | iri
  /-- step-reset -/
  | sr
  /-- halt (the control line; the instruction is `hlt`) -/
  | halt
  /-- accumulator-increment -/
  | accinc
  /-- program-counter-in -/
  | pcin
  /-- zero-flag-clear -/
  | zfc
  /-- zero-flag-set -/
  | zfs
  /-- zero-flag-out -/
  | zfo
deriving DecidableEq, Repr

/-- One entry of a decoder table: the control word held at the key (`step`, `opcode`) (R50). -/
structure DecoderEntry where
  step : Nat
  opcode : Byte
  word : ControlWord
deriving DecidableEq, Repr

/-- A decoder table as data: the keys that have an entry, each with its word. A key that is not
listed yields the empty control word (R51). The table is a parameter of the machine, not part of
its state (spec/00_scope.md R8). -/
abbrev DecoderTable := List DecoderEntry

/-- One entry of a memory image as the host writes it: plain numbers, which the loader checks
(spec/20_memory.md R34). -/
structure ImageEntry where
  addr : Nat
  value : Nat
deriving DecidableEq, Repr

/-- A memory image: "a mapping from address to byte value" (spec/00_scope.md R9). -/
abbrev Image := List ImageEntry

/-- The six mnemonics of the assembler (R54, R60). -/
inductive Mnemonic where
  | LDI
  | ADI
  | INC
  | JMP
  | JZ
  | HLT
deriving DecidableEq, Repr

/-- One line of an assembly program: a statement or a directive (R60, R61). Operands are plain
numbers here; `Stmt.wf` says which are legal. -/
inductive Stmt where
  /-- `MNEMONIC` or `MNEMONIC operand`. -/
  | op (m : Mnemonic) (operand : Option Nat)
  /-- `ORG n`: the next statement is at address `n`. -/
  | org (n : Nat)
  /-- `GAP n`: leave `n` cells unset. -/
  | gap (n : Nat)
  /-- `DB n`: place one raw byte. -/
  | db (n : Nat)
deriving DecidableEq, Repr

end Sys2Proof
end

