-- ==== Sys2Proof/WellFormed.lean ====
section
/-! DEFINITION. What is well formed: instructions, decoder tables, memory images and assembler
statements. -/

namespace Sys2Proof

/-- Every value of `Instr` is well formed: the operand is a byte by its type, and every byte is a
legal operand (spec/30_encoding.md R53; every jump target is legal, spec/42_instructions.md
R106). -/
def Instr.wf : Instr → Bool
  | .ldi _ => true
  | .adi _ => true
  | .inc => true
  | .jmp _ => true
  | .jz => true
  | .hlt => true

/-- "keys are unique in the Decoder Table": the table is a function of (step, opcode)
(spec/30_encoding.md R50). -/
abbrev DecoderTable.KeysUnique (t : DecoderTable) : Prop :=
  t.Pairwise (fun a b => ¬(a.step = b.step ∧ a.opcode = b.opcode))

/-- Every entry's step is below `n`; with `n = 2^STEP_BITS - 1` the highest index of a physical
ROM holds no entry, as its saturating counter needs (spec/00_scope.md R7). -/
abbrev DecoderTable.StepsBelow (t : DecoderTable) (n : Nat) : Prop :=
  ∀ e ∈ t, e.step < n

/-- An image entry can be represented: address and value are 0 to 255 (spec/20_memory.md R34). -/
def ImageEntry.wf (e : ImageEntry) : Bool :=
  decide (e.addr < 256) && decide (e.value < 256)

/-- An image the loader accepts: every entry representable (R34), and no address given twice,
because an image is a mapping (spec/00_scope.md R9; notes/assumptions/6.md, DESIGN CHOICE). -/
def Image.wf (img : Image) : Bool :=
  img.all ImageEntry.wf && decide (img.Pairwise (fun a b => a.addr ≠ b.addr))

/-- Does the mnemonic take an operand byte: format `OP_IMM` (R52, R54)? -/
def Mnemonic.hasOperand : Mnemonic → Bool
  | .LDI => true
  | .ADI => true
  | .INC => false
  | .JMP => true
  | .JZ => false
  | .HLT => false

/-- A legal statement: an operand where the format has one and none where it has none, each
operand and each raw byte a number 0 to 255 (R60, R61). -/
def Stmt.wf : Stmt → Bool
  | .op m (some n) => m.hasOperand && decide (n < 256)
  | .op m none => !m.hasOperand
  | .org _ => true
  | .gap _ => true
  | .db n => decide (n < 256)

end Sys2Proof
end

