-- ==== Sys2Proof/Decode.lean ====
section
/-! DEFINITION. The instruction decoder and encoder, both written from the opcode map of
spec/30_encoding.md R52 and R54, and the host's view of the decoder on a table word. -/

namespace Sys2Proof

/-- The opcode values (R54). -/
abbrev opLdi : Byte := 0x00#8
abbrev opAdi : Byte := 0x01#8
/-- The gap kept for "store to memory": an undefined opcode, never a store (R57). -/
abbrev opStoreGap : Byte := 0x02#8
abbrev opInc : Byte := 0x03#8
abbrev opJmp : Byte := 0x04#8
abbrev opJz : Byte := 0x05#8
abbrev opHlt : Byte := 0x06#8

/-- Why bytes stand for no instruction. The machine itself never refuses: it idles on an
undefined opcode (R56). These names are the decoder's own (notes/assumptions/11.md). -/
inductive DecodeError where
  /-- There is no opcode byte. -/
  | noOpcode
  /-- A two-byte instruction whose operand byte is missing. -/
  | noOperand (opcode : Byte)
  /-- 0x02, reserved for a store that was never implemented (R57). -/
  | reservedStore
  /-- 0x07 to 0xFF (R56). -/
  | undefinedOpcode (opcode : Byte)
deriving DecidableEq, Repr

/-- The operand byte of format `OP_IMM`, the byte after the opcode (R52, R53). -/
def withOperand (op : Byte) (mk : Byte → Instr) :
    List Byte → Except DecodeError (Instr × List Byte)
  | [] => .error (.noOperand op)
  | imm :: rest => .ok (mk imm, rest)

/-- The instruction at the head of a list of bytes, with the bytes after it. The whole opcode
byte selects the instruction (R52). -/
def decode : List Byte → Except DecodeError (Instr × List Byte)
  | [] => .error .noOpcode
  | op :: rest =>
    if op = opLdi then withOperand op .ldi rest
    else if op = opAdi then withOperand op .adi rest
    else if op = opStoreGap then .error .reservedStore
    else if op = opInc then .ok (.inc, rest)
    else if op = opJmp then withOperand op .jmp rest
    else if op = opJz then .ok (.jz, rest)
    else if op = opHlt then .ok (.hlt, rest)
    else .error (.undefinedOpcode op)

/-- The bytes of an instruction: the opcode at address `a`, the operand at `a + 1` (R52). -/
def encode : Instr → List Byte
  | .ldi imm => [opLdi, imm]
  | .adi imm => [opAdi, imm]
  | .inc => [opInc]
  | .jmp target => [opJmp, target]
  | .jz => [opJz]
  | .hlt => [opHlt]

/-- The length of an instruction in bytes (R54, R55). -/
def Instr.length : Instr → Nat
  | .ldi _ => 2
  | .adi _ => 2
  | .inc => 1
  | .jmp _ => 2
  | .jz => 1
  | .hlt => 1

/-- "A disassembler tells the length from the opcode byte" (R55); an undefined opcode has length
zero in the sense of that rule: `PC` never moves. -/
def lengthOfOpcode (op : Byte) : Nat :=
  if op = opLdi then 2
  else if op = opAdi then 2
  else if op = opInc then 1
  else if op = opJmp then 2
  else if op = opJz then 1
  else if op = opHlt then 1
  else 0

/-- The bytes of an instruction given as one number, bit 0 the least significant bit of the
first byte; the bits from `nbits` on are zero. Two bytes: the longest instruction. -/
def tableBytes (nbits w : Nat) : List Byte :=
  [BitVec.ofNat 8 (w % 2 ^ nbits), BitVec.ofNat 8 (w % 2 ^ nbits / 256)]

/-- The instruction the decoder reads from a word of the opcode table. -/
def decodeTableWord (nbits w : Nat) : Option Instr :=
  match decode (tableBytes nbits w) with
  | .ok (i, _) => some i
  | .error _ => none

end Sys2Proof
end

