-- ==== Sys2Proof/Config.lean ====
section
/-! DEFINITION. What the spec leaves to an implementation. The machine's rules read none of it:
only the ports of a physical realisation do. -/

namespace Sys2Proof

/-- `STEP_BITS - 4`, left OPEN by the spec (spec/00_scope.md R7, spec/92_eei_decisions.md D3):
any number (notes/assumptions/5.md). -/
opaque Config.extraStepBits : Nat

/-- `STEP_BITS`, the width of a physical step counter: "at least 4 for `REF_DECODER`" (R7). -/
def Config.stepBits : Nat := 4 + Config.extraStepBits

end Sys2Proof
end

