-- ==== Sys2Proof/Machine/State.lean ====
section
/-! DEFINITION. The state of the machine: the nine elements of spec/10_state.md R14, no more, as
plain data, with the reasons a step could stop and the state after reset. -/

namespace Sys2Proof.Machine

/-- Memory as a list of cells in one canonical form: addresses strictly rising, below 256, and no
cell that holds the byte an unlisted address reads as (`Memory.wf`). 256 cells of 8 bits
(spec/20_memory.md R33). -/
abbrev Memory := List Host.Cell

/-- The nine state elements (R14). -/
structure State where
  /-- `PC`, program counter (R16). -/
  pc : Addr
  /-- `STEP`, micro-step counter, a natural number with no upper bound (R7, R18). -/
  stepCtr : Nat
  /-- `BUS`, the shared bus, which holds its value between cycles (R23). -/
  bus : Byte
  /-- `MAR`, memory-address register (R20). -/
  mar : Addr
  /-- `IR`, instruction register (R19). -/
  ir : Byte
  /-- `ACC`, accumulator (R15). -/
  acc : Byte
  /-- `ZF`, the sticky zero flag (R17). -/
  zf : Bool
  /-- `HALTED` (R21). -/
  halted : Bool
  /-- `MEM[0..255]` (R25). -/
  mem : Memory
deriving DecidableEq, Repr

/-- Reasons for a fault. There are none: "The complete list of exception causes is the empty
list" (spec/60_exceptions.md R116), and the machine "has no other stopping condition, no stuck
state and no fault" (R125). -/
inductive Fault where
deriving DecidableEq, Repr

/-- Reasons to refuse an instruction. -/
inductive Refusal where
  /-- Raised by an arm of `exec` whose instruction has no meaning yet; safe. No arm raises it:
  all six instructions have their meaning. -/
  | notModelled (mnemonic : String)
deriving DecidableEq, Repr

/-- The machine right after reset, every register 0 and not halted (R26, R131), with the given
memory: reset does not touch memory (R132). -/
def State.resetWith (m : Memory) : State where
  pc := 0
  stepCtr := 0
  bus := 0
  mar := 0
  ir := 0
  acc := 0
  zf := false
  halted := false
  mem := m

/-- The machine right after reset with the empty image: every cell reads 0 (R34; how a program
comes into memory is notes/assumptions/3.md). -/
def State.reset : State := State.resetWith []

end Sys2Proof.Machine
end

