-- ==== Sys2Proof/Machine/Ops.lean ====
section
/-! DEFINITION. The named operations over memory and over the registers as a whole. There is no
operation that takes an exception or returns from one: the machine has neither
(spec/60_exceptions.md R116, R119, R120). -/

namespace Sys2Proof.Machine

/-- What a cell that nothing has set reads as: 0 (spec/20_memory.md R34). -/
def unsetByte : Byte := 0x00#8

/-- The content of the cell with number `a`. -/
def Memory.readAt : Memory → Nat → Byte
  | [], _ => unsetByte
  | (k, v) :: rest, a => if a = k then v else Memory.readAt rest a

/-- `MemRead(addr, 1)`: one cell, no side effect, never fails (R35). -/
def Memory.read (m : Memory) (a : Addr) : Byte := Memory.readAt m a.toNat

/-- Set the cell with number `a`, keeping the canonical form. Only the host's loader uses it: the
machine never writes memory (R36). -/
def Memory.writeAt : Memory → Nat → Byte → Memory
  | [], a, v => if v = unsetByte then [] else [(a, v)]
  | (k, w) :: rest, a, v =>
    if a < k then
      if v = unsetByte then (k, w) :: rest else (a, v) :: (k, w) :: rest
    else if a = k then
      if v = unsetByte then rest else (a, v) :: rest
    else (k, w) :: Memory.writeAt rest a v

/-- Set one cell before the run (R34). -/
def Memory.write (m : Memory) (a : Addr) (v : Byte) : Memory := Memory.writeAt m a.toNat v

/-- The canonical form: addresses strictly rising and below 256 (R33), no cell that holds the
unset byte. -/
abbrev Memory.wf (m : Memory) : Prop :=
  m.Pairwise (fun a b => a.1 < b.1) ∧ ∀ c ∈ m, c.1 < 256 ∧ c.2 ≠ unsetByte

/-! The writes of the state elements, `X <- v` (spec/00_scope.md R12). -/

/-- `PC <- v`. -/
def State.setPc (s : State) (v : Addr) : State := { s with pc := v }

/-- `STEP <- v`. -/
def State.setStep (s : State) (v : Nat) : State := { s with stepCtr := v }

/-- `BUS <- v`. -/
def State.setBus (s : State) (v : Byte) : State := { s with bus := v }

/-- `MAR <- v`. -/
def State.setMar (s : State) (v : Addr) : State := { s with mar := v }

/-- `IR <- v`. -/
def State.setIr (s : State) (v : Byte) : State := { s with ir := v }

/-- `ACC <- v`. -/
def State.setAcc (s : State) (v : Byte) : State := { s with acc := v }

/-- `ZF <- v`. -/
def State.setZf (s : State) (v : Bool) : State := { s with zf := v }

/-- `HALTED <- v`. -/
def State.setHalted (s : State) (v : Bool) : State := { s with halted := v }

/-- Memory replaced whole: only the host's loader does it (spec/20_memory.md R36, R45). -/
def State.setMem (s : State) (m : Memory) : State := { s with mem := m }

/-- Reset of the registers: every state element but memory takes its reset value
(spec/10_state.md R30, spec/70_reset_and_hazards.md R131, R132). -/
def State.resetRegisters (s : State) : State := State.resetWith s.mem

end Sys2Proof.Machine
end

