-- ==== Sys2Proof/Machine/Flags.lean ====
section
/-! DEFINITION. Every flag computation of the machine: `ZF` is its only status flag
(spec/10_state.md R17). -/

namespace Sys2Proof.Machine

/-- `ZF` after `ACCL` or `ACCA` has written `v` to the accumulator: set when `v` is 0, otherwise
left as it was, never cleared (spec/40_control_lines.md R70, R71). -/
def zfAfterResult (zf : Bool) (v : Byte) : Bool :=
  if v = 0x00#8 then true else zf

/-- `zext_8(ZF)`: the flag as the bus value `ZFO` drives, 0x00 or 0x01 (spec/00_scope.md R12,
R76). -/
def zfToByte (zf : Bool) : Byte :=
  if zf then 0x01#8 else 0x00#8

end Sys2Proof.Machine
end

