-- ==== Sys2Proof/Machine/Operands.lean ====
section
/-! DEFINITION. The operand form of the machine, the immediate byte after the opcode
(spec/30_encoding.md R52, R53; spec/42_instructions.md R111), as the memory port delivers it. -/

namespace Sys2Proof.Machine

/-- `n(k)`: the address `k` bytes after `a`, modulo 256 (spec/42_instructions.md). -/
def addrPlus (a : Addr) (k : Nat) : Addr := a + BitVec.ofNat 8 k

/-- What the memory port answers while the instruction with these bytes stands at `PC`: its own
bytes at `PC` and after it (modulo 256), memory's content elsewhere. Where memory does hold the
bytes at `PC` this is memory itself (notes/assumptions/2.md). -/
def portShowing (bytes : List Byte) (s : State) : Addr → Byte :=
  fun a => bytes.getD (a - s.pc).toNat (s.mem.read a)

/-- Memory holds these bytes at `a` and after it, modulo 256 (R38). -/
def memHolds (m : Memory) (a : Addr) : List Byte → Bool
  | [] => true
  | b :: rest => decide (m.read a = b) && memHolds m (addrPlus a 1) rest

end Sys2Proof.Machine
end

