-- ==== Sys2Proof/Machine/ControlWord.lean ====
section
/-! DEFINITION. Control words: which bit is which line, and words as sets of lines
(spec/30_encoding.md R47 to R49). -/

namespace Sys2Proof.Machine

/-- The bit position of a line (R48). -/
def lineBit : ControlLine → Nat
  | .pco => 0
  | .pcinc => 1
  | .mari => 2
  | .mo => 3
  | .accl => 4
  | .acca => 5
  | .acco => 6
  | .iri => 7
  | .sr => 8
  | .halt => 9
  | .accinc => 10
  | .pcin => 11
  | .zfc => 12
  | .zfs => 13
  | .zfo => 14

/-- The mask of a line (R48). -/
def lineMask (l : ControlLine) : ControlWord := 1#15 <<< lineBit l

/-- `CW.has(L)` (spec/00_scope.md R12). -/
def has (cw : ControlWord) (l : ControlLine) : Bool := cw.getLsbD (lineBit l)

/-- The word that asserts exactly the lines of a list (R49). -/
def wordOf : List ControlLine → ControlWord
  | [] => 0#15
  | l :: rest => lineMask l ||| wordOf rest

/-- The empty control word, the "no-op" (R49, R51). -/
def emptyWord : ControlWord := 0#15

/-- The fifteen lines in bit order (R47, R48). -/
def allLines : List ControlLine :=
  [.pco, .pcinc, .mari, .mo, .accl, .acca, .acco, .iri, .sr, .halt, .accinc, .pcin, .zfc, .zfs,
    .zfo]

/-- The lines a word asserts (R49). -/
def linesOf (cw : ControlWord) : List ControlLine := allLines.filter (has cw)

/-- A control word stored in a 16-bit ROM word: bit 15 is written 0 (R48). -/
def toRomWord (cw : ControlWord) : BitVec 16 := cw.setWidth 16

/-- A control word read from a 16-bit ROM word: bit 15 is ignored (R48). -/
def ofRomWord (w : BitVec 16) : ControlWord := w.setWidth 15

/-- The lines that write `BUS` (spec/00_scope.md, Bus driver). -/
def isBusDriver : ControlLine → Bool
  | .pco => true
  | .mo => true
  | .acco => true
  | .zfo => true
  | _ => false

/-- The lines that read `BUS` (spec/00_scope.md, Bus consumer). -/
def isBusConsumer : ControlLine → Bool
  | .pcin => true
  | .mari => true
  | .accl => true
  | .acca => true
  | .iri => true
  | _ => false

end Sys2Proof.Machine
end

