-- ==== Sys2Proof/Machine/Decoder.lean ====
section
/-! DEFINITION. The microcode decoder: lookup in any table, the micro-programs of the six
instructions, and the tables `REF_DECODER` and `SUBSET_DECODER` (spec/41_microprograms.md). -/

namespace Sys2Proof.Machine

/-- `DECODER(step, opcode)`: the word the table holds at the key, the empty word where it has no
entry (spec/30_encoding.md R51, spec/41_microprograms.md R87). -/
def lookup : DecoderTable → Nat → Byte → ControlWord
  | [], _, _ => emptyWord
  | e :: rest, k, op => if e.step = k ∧ e.opcode = op then e.word else lookup rest k op

/-- A defined opcode: one for which the table has entries (spec/00_scope.md, glossary). -/
def defines (t : DecoderTable) (op : Byte) : Bool := t.any (fun e => decide (e.opcode = op))

/-- The entries of one micro-program from step `k` on (R88). -/
def entriesFrom (op : Byte) : Nat → List ControlWord → DecoderTable
  | _, [] => []
  | k, w :: rest => ⟨k, op, w⟩ :: entriesFrom op (k + 1) rest

/-- The entries of one opcode: its micro-program indexed by increasing step (R88). -/
def entriesOf (op : Byte) (prog : List ControlWord) : DecoderTable := entriesFrom op 0 prog

/-- The three fetch steps every defined opcode shares (R89, R90, R91). -/
def fetchPrefix : List ControlWord :=
  [wordOf [.pco, .mari], wordOf [.mo, .iri], wordOf [.pcinc]]

/-- `LDI` (R93). -/
def microLdi : List ControlWord :=
  fetchPrefix ++ [wordOf [.pco, .mari], wordOf [.mo, .accl], wordOf [.pcinc, .sr]]

/-- `ADI` (R94). -/
def microAdi : List ControlWord :=
  fetchPrefix ++ [wordOf [.pco, .mari], wordOf [.mo, .acca], wordOf [.pcinc, .sr]]

/-- `INC` (R95). -/
def microInc : List ControlWord :=
  fetchPrefix ++ [wordOf [.accinc, .sr]]

/-- `JMP` (R96): the target crosses from step 4 to step 5 on the held bus. -/
def microJmp : List ControlWord :=
  fetchPrefix ++ [wordOf [.pco, .mari], wordOf [.mo], wordOf [.pcin, .sr]]

/-- `JZ` (R97): `ACC <- ZF`, `ACC <- ACC + PC`, `PC <- ACC`. -/
def microJz : List ControlWord :=
  fetchPrefix ++
    [wordOf [.zfo], wordOf [.accl], wordOf [.pco, .acca], wordOf [.acco], wordOf [.pcin, .sr]]

/-- `HLT` (R98). -/
def microHlt : List ControlWord :=
  fetchPrefix ++ [wordOf [.halt, .sr]]

/-- `REF_DECODER`, the table that is the instruction set (R99). -/
def refDecoder : DecoderTable :=
  entriesOf opLdi microLdi ++ entriesOf opAdi microAdi ++ entriesOf opInc microInc ++
    entriesOf opJmp microJmp ++ entriesOf opJz microJz ++ entriesOf opHlt microHlt

/-- `SUBSET_DECODER`: `REF_DECODER` without the entries of `JMP` and `JZ`
(spec/30_encoding.md R59, R101). -/
def subsetDecoder : DecoderTable :=
  refDecoder.filter (fun e => !(decide (e.opcode = opJmp) || decide (e.opcode = opJz)))

/-- The micro-program of an instruction. -/
def microprogramOf : Instr → List ControlWord
  | .ldi _ => microLdi
  | .adi _ => microAdi
  | .inc => microInc
  | .jmp _ => microJmp
  | .jz => microJz
  | .hlt => microHlt

/-- The micro-program `REF_DECODER` holds for an opcode, none for an undefined one (R88, R99). -/
def microprogramOfOpcode (op : Byte) : List ControlWord :=
  if op = opLdi then microLdi
  else if op = opAdi then microAdi
  else if op = opInc then microInc
  else if op = opJmp then microJmp
  else if op = opJz then microJz
  else if op = opHlt then microHlt
  else []

/-- How many cycles an instruction takes: the length of its micro-program
(spec/70_reset_and_hazards.md R146). -/
def cyclesOf (i : Instr) : Nat := (microprogramOf i).length

/-- How many memory reads an instruction makes: its words that assert `MO` (R146). -/
def readsOf (i : Instr) : Nat := (microprogramOf i).countP (fun w => has w .mo)

/-- A micro-program that ends as R88 asks: its last word asserts `SR` and no earlier word does. -/
def endsWithStepReset : List ControlWord → Bool
  | [] => false
  | [w] => has w .sr
  | w :: rest => !has w .sr && endsWithStepReset rest

end Sys2Proof.Machine
end

