-- ==== Sys2Proof/Machine/Cycle.lean ====
section
/-! DEFINITION. One machine cycle over any decoder table (spec/40_control_lines.md): one function
per control line, the fixed order in which they act, the step advance, and the same cycle again
as a chain of values. -/

namespace Sys2Proof.Machine

/-- `PCO`: `BUS <- PC` (R65). -/
def effPco (cw : ControlWord) (s : State) : State :=
  if has cw .pco then s.setBus s.pc else s

/-- `PCINC`: `PC <- (PC + 1) mod 256` (R66). -/
def effPcinc (cw : ControlWord) (s : State) : State :=
  if has cw .pcinc then s.setPc (s.pc + 1#8) else s

/-- `PCIN`: `PC <- BUS` (R67). -/
def effPcin (cw : ControlWord) (s : State) : State :=
  if has cw .pcin then s.setPc s.bus else s

/-- `MARI`: `MAR <- BUS` (R68). -/
def effMari (cw : ControlWord) (s : State) : State :=
  if has cw .mari then s.setMar s.bus else s

/-- `MO`: `BUS <- MemRead(MAR, 1)` (R69). `port` is what memory answers for an address in this
cycle; memory answers combinationally (spec/20_memory.md R37). -/
def effMo (cw : ControlWord) (port : Addr → Byte) (s : State) : State :=
  if has cw .mo then s.setBus (port s.mar) else s

/-- `ACCL`: `ACC <- BUS; if ACC = 0 then ZF <- 1` (R70). -/
def effAccl (cw : ControlWord) (s : State) : State :=
  if has cw .accl then (s.setAcc s.bus).setZf (zfAfterResult s.zf s.bus) else s

/-- `ACCA`: `ACC <- (ACC + BUS) mod 256; if ACC = 0 then ZF <- 1` (R71). -/
def effAcca (cw : ControlWord) (s : State) : State :=
  if has cw .acca then
    (s.setAcc (s.acc + s.bus)).setZf (zfAfterResult s.zf (s.acc + s.bus))
  else s

/-- `ACCO`: `BUS <- ACC` (R72). -/
def effAcco (cw : ControlWord) (s : State) : State :=
  if has cw .acco then s.setBus s.acc else s

/-- `IRI`: `IR <- BUS` (R73). -/
def effIri (cw : ControlWord) (s : State) : State :=
  if has cw .iri then s.setIr s.bus else s

/-- `ZFC`: `ZF <- 0` (R74). -/
def effZfc (cw : ControlWord) (s : State) : State :=
  if has cw .zfc then s.setZf false else s

/-- `ZFS`: `ZF <- 1` (R75). -/
def effZfs (cw : ControlWord) (s : State) : State :=
  if has cw .zfs then s.setZf true else s

/-- `ZFO`: `BUS <- zext_8(ZF)` (R76). -/
def effZfo (cw : ControlWord) (s : State) : State :=
  if has cw .zfo then s.setBus (zfToByte s.zf) else s

/-- `HALT`: `HALTED <- 1` (R77). -/
def effHalt (cw : ControlWord) (s : State) : State :=
  if has cw .halt then s.setHalted true else s

/-- `ACCINC`: `ACC <- (ACC + 1) mod 256`; it leaves `ZF` alone (R78). -/
def effAccinc (cw : ControlWord) (s : State) : State :=
  if has cw .accinc then s.setAcc (s.acc + 1#8) else s

/-- The step advance, where `SR` acts (R79). -/
def advanceStep (cw : ControlWord) (s : State) : State :=
  if has cw .sr then s.setStep 0 else s.setStep (s.stepCtr + 1)

/-- The fourteen effects of one control word in the fixed order (R64). -/
def applyEffects (cw : ControlWord) (port : Addr → Byte) (s : State) : State :=
  effAccinc cw <| effHalt cw <| effZfo cw <| effZfs cw <| effZfc cw <| effIri cw <|
    effAcco cw <| effAcca cw <| effAccl cw <| effMo cw port <| effMari cw <| effPcin cw <|
      effPcinc cw <| effPco cw s

/-- One control word applied whole: the effects, then the step advance (R62). The halting cycle
completes like any other (R77). -/
def applyWord (cw : ControlWord) (port : Addr → Byte) (s : State) : State :=
  advanceStep cw (applyEffects cw port s)

/-- One cycle under a decoder table and a memory port: nothing when halted (R80); otherwise look
up the word once, under the key of the start of the cycle, and apply it (R62, R63). -/
def cycleOn (dec : DecoderTable) (port : Addr → Byte) (s : State) : State :=
  if s.halted then s else applyWord (lookup dec s.stepCtr s.ir) port s

/-- One cycle of the machine with its own memory on the port (R62). -/
def cycle (dec : DecoderTable) (s : State) : State := cycleOn dec s.mem.read s

/-- `n` clock edges. -/
def cycles (dec : DecoderTable) : Nat → State → State
  | 0, s => s
  | n + 1, s => cycles dec n (cycle dec s)

/-- A list of control words applied one cycle each; once halted, no further cycle is processed
(R80). -/
def applyWords (port : Addr → Byte) : List ControlWord → State → State
  | [], s => s
  | w :: rest, s => if s.halted then s else applyWords port rest (applyWord w port s)

/-- The cycle written as the chain of values of R82: each name below is a name of that rule. -/
def chain (cw : ControlWord) (port : Addr → Byte) (s : State) : State :=
  let c := has cw
  let b1 := if c .pco then s.pc else s.bus
  let pc1 := if c .pcinc then s.pc + 1#8 else s.pc
  let pc' := if c .pcin then b1 else pc1
  let mar' := if c .mari then b1 else s.mar
  let b2 := if c .mo then port mar' else b1
  let a1 := if c .accl then b2 else s.acc
  let z1 := if c .accl && decide (a1 = 0#8) then true else s.zf
  let a2 := if c .acca then a1 + b2 else a1
  let z2 := if c .acca && decide (a2 = 0#8) then true else z1
  let b3 := if c .acco then a2 else b2
  let ir' := if c .iri then b3 else s.ir
  let z3 := if c .zfc then false else z2
  let zf' := if c .zfs then true else z3
  let bus' := if c .zfo then (if zf' then 0x01#8 else 0x00#8) else b3
  let halted' := if c .halt then true else s.halted
  let acc' := if c .accinc then a2 + 1#8 else a2
  let step' := if c .sr then 0 else s.stepCtr + 1
  { pc := pc', stepCtr := step', bus := bus', mar := mar', ir := ir', acc := acc', zf := zf',
    halted := halted', mem := s.mem }

end Sys2Proof.Machine
end

