-- ==== Sys2Proof/Machine/Fetch.lean ====
section
/-! DEFINITION. The instruction boundary, the instruction that stands at `PC`, the shared
operation every meaning runs, and the placing of an instruction where the next step fetches it. -/

namespace Sys2Proof.Machine

/-- The condition of an instruction boundary (spec/42_instructions.md R102): `STEP = 0`,
`HALTED = 0`, and `IR`, under which the first two fetch steps are looked up, a defined opcode. -/
def atBoundary (s : State) : Bool :=
  decide (s.stepCtr = 0) && !s.halted && defines refDecoder s.ir

/-- The two bytes at `PC`: the opcode byte and the byte after it, modulo 256
(spec/20_memory.md R38). -/
def bytesAtPc (s : State) : List Byte := [s.mem.read s.pc, s.mem.read (addrPlus s.pc 1)]

/-- The instruction the next step runs: at a boundary, what the bytes at `PC` decode to; none
otherwise, and none where they hold an undefined opcode (R109). -/
def fetched (s : State) : Option Instr :=
  if atBoundary s then
    match decode (bytesAtPc s) with
    | .ok (i, _) => some i
    | .error _ => none
  else none

/-- Run one micro-program, fetch prefix included, while the memory port shows the instruction's
bytes at `PC` (notes/assumptions/2.md). -/
def runMicroprogram (bytes : List Byte) (prog : List ControlWord) (s : State) : State :=
  applyWords (portShowing bytes s) prog s

/-- `s` with the bytes stored at `PC` and after it, and brought to an instruction boundary: not
halted, `STEP` 0, and `IR` kept where it is a defined opcode, else its reset value
(notes/assumptions/4.md). -/
def placeBytes (s : State) (b0 b1 : Byte) : State :=
  (((s.setMem ((s.mem.write s.pc b0).write (addrPlus s.pc 1) b1)).setStep 0).setHalted
    false).setIr (if defines refDecoder s.ir then s.ir else 0x00#8)

/-- Place the instruction whose bits are `w` where the next step fetches it. -/
def placeTableWord (s : State) (nbits w : Nat) : State :=
  placeBytes s (BitVec.ofNat 8 (w % 2 ^ nbits)) (BitVec.ofNat 8 (w % 2 ^ nbits / 256))

end Sys2Proof.Machine
end

