-- ==== Sys2Proof/Machine/ControlTransfer.lean ====
section
/-! DEFINITION. The control-transfer instructions `JMP` and `JZ`
(spec/42_instructions.md section 3). -/

namespace Sys2Proof.Machine

/-- `JMP imm8` (R106, micro-program R96): `PC <- imm8`. -/
def execJmp (target : Byte) (s : State) : Host.Outcome State Fault Refusal :=
  .next (runMicroprogram [opJmp, target] microJmp s)

/-- `JZ` (R107, micro-program R97): `ACC <- (ZF + n(1)) mod 256; PC <- ACC; ZF <- 1`. -/
def execJz (s : State) : Host.Outcome State Fault Refusal :=
  .next (runMicroprogram [opJz] microJz s)

end Sys2Proof.Machine
end

