-- ==== Sys2Proof/Machine/LoadArith.lean ====
section
/-! DEFINITION. The load and arithmetic instructions `LDI`, `ADI`, `INC`
(spec/42_instructions.md section 2). Each meaning runs the instruction's own micro-program: the
micro-step level governs (spec/00_scope.md R4). -/

namespace Sys2Proof.Machine

/-- `LDI imm8` (R103, micro-program R93): `ACC <- imm8; if imm8 = 0 then ZF <- 1; PC <- n(2)`. -/
def execLdi (imm : Byte) (s : State) : Host.Outcome State Fault Refusal :=
  .next (runMicroprogram [opLdi, imm] microLdi s)

/-- `ADI imm8` (R104, micro-program R94): `ACC <- (ACC + imm8) mod 256; if ACC = 0 then ZF <- 1;
PC <- n(2)`. -/
def execAdi (imm : Byte) (s : State) : Host.Outcome State Fault Refusal :=
  .next (runMicroprogram [opAdi, imm] microAdi s)

/-- `INC` (R105, micro-program R95): `ACC <- (ACC + 1) mod 256; PC <- n(1)`, `ZF` untouched. -/
def execInc (s : State) : Host.Outcome State Fault Refusal :=
  .next (runMicroprogram [opInc] microInc s)

end Sys2Proof.Machine
end

