-- ==== Sys2Proof/Machine/System.lean ====
section
/-! DEFINITION. The system instruction `HLT` (spec/42_instructions.md section 4). -/

namespace Sys2Proof.Machine

/-- `HLT` (R108, micro-program R98): `HALTED <- 1; PC <- n(1)`. The state it leaves is final until
reset. -/
def execHlt (s : State) : Host.Outcome State Fault Refusal :=
  .next (runMicroprogram [opHlt] microHlt s)

end Sys2Proof.Machine
end

