-- ==== Sys2Proof/Machine/Dispatch.lean ====
section
/-! DEFINITION. The meaning of each instruction, one arm per constructor. -/

namespace Sys2Proof.Machine

def exec (i : Instr) (s : State) : Host.Outcome State Fault Refusal :=
  match i with
  | .ldi imm => Sys2Proof.Machine.execLdi imm s
  | .adi imm => Sys2Proof.Machine.execAdi imm s
  | .inc => Sys2Proof.Machine.execInc s
  | .jmp target => Sys2Proof.Machine.execJmp target s
  | .jz => Sys2Proof.Machine.execJz s
  | .hlt => Sys2Proof.Machine.execHlt s

end Sys2Proof.Machine
end

