-- ==== Sys2Proof/Machine/Step.lean ====
section
/-! DEFINITION. The step the host's interface asks for: one whole instruction at an instruction
boundary, one cycle elsewhere (notes/assumptions/1.md). The machine's own step relation, one cycle
always (spec/00_scope.md R4), is `microStep` in Sys2Proof/Machine/MicroStep.lean. -/

namespace Sys2Proof.Machine

/-- One step. A halted machine keeps its state (spec/40_control_lines.md R80). At an instruction
boundary with a defined opcode at `PC` the step is that whole instruction
(spec/42_instructions.md R102). In every other state, mid-instruction or idling on an undefined
opcode, it is one cycle under `REF_DECODER` (R62, R109). -/
def step (s : State) : Host.Outcome State Fault Refusal :=
  if s.halted then .next s
  else
    match fetched s with
    | some i => exec i s
    | none => .next (cycle refDecoder s)

/-- `s` with the instruction whose bits are `w` placed where the next step fetches it; it stands
for the host's load of an image before the run (notes/assumptions/3.md, notes/assumptions/4.md). -/
def State.withFetchWord (s : State) (nbits w : Nat) : State := placeTableWord s nbits w

end Sys2Proof.Machine
end

