-- ==== Sys2Proof/Laws/State.lean ====
section
/-! SUPPORT. The fields of a state after each update: one lemma per field per update. -/

namespace Sys2Proof.Machine

@[simp] theorem State.setPc_pc (s : State) (v : Addr) : (s.setPc v).pc = v := rfl
@[simp] theorem State.setPc_stepCtr (s : State) (v : Addr) : (s.setPc v).stepCtr = s.stepCtr := rfl
@[simp] theorem State.setPc_bus (s : State) (v : Addr) : (s.setPc v).bus = s.bus := rfl
@[simp] theorem State.setPc_mar (s : State) (v : Addr) : (s.setPc v).mar = s.mar := rfl
@[simp] theorem State.setPc_ir (s : State) (v : Addr) : (s.setPc v).ir = s.ir := rfl
@[simp] theorem State.setPc_acc (s : State) (v : Addr) : (s.setPc v).acc = s.acc := rfl
@[simp] theorem State.setPc_zf (s : State) (v : Addr) : (s.setPc v).zf = s.zf := rfl
@[simp] theorem State.setPc_halted (s : State) (v : Addr) : (s.setPc v).halted = s.halted := rfl
@[simp] theorem State.setPc_mem (s : State) (v : Addr) : (s.setPc v).mem = s.mem := rfl

@[simp] theorem State.setStep_pc (s : State) (v : Nat) : (s.setStep v).pc = s.pc := rfl
@[simp] theorem State.setStep_stepCtr (s : State) (v : Nat) : (s.setStep v).stepCtr = v := rfl
@[simp] theorem State.setStep_bus (s : State) (v : Nat) : (s.setStep v).bus = s.bus := rfl
@[simp] theorem State.setStep_mar (s : State) (v : Nat) : (s.setStep v).mar = s.mar := rfl
@[simp] theorem State.setStep_ir (s : State) (v : Nat) : (s.setStep v).ir = s.ir := rfl
@[simp] theorem State.setStep_acc (s : State) (v : Nat) : (s.setStep v).acc = s.acc := rfl
@[simp] theorem State.setStep_zf (s : State) (v : Nat) : (s.setStep v).zf = s.zf := rfl
@[simp] theorem State.setStep_halted (s : State) (v : Nat) : (s.setStep v).halted = s.halted := rfl
@[simp] theorem State.setStep_mem (s : State) (v : Nat) : (s.setStep v).mem = s.mem := rfl

@[simp] theorem State.setBus_pc (s : State) (v : Byte) : (s.setBus v).pc = s.pc := rfl
@[simp] theorem State.setBus_stepCtr (s : State) (v : Byte) : (s.setBus v).stepCtr = s.stepCtr := rfl
@[simp] theorem State.setBus_bus (s : State) (v : Byte) : (s.setBus v).bus = v := rfl
@[simp] theorem State.setBus_mar (s : State) (v : Byte) : (s.setBus v).mar = s.mar := rfl
@[simp] theorem State.setBus_ir (s : State) (v : Byte) : (s.setBus v).ir = s.ir := rfl
@[simp] theorem State.setBus_acc (s : State) (v : Byte) : (s.setBus v).acc = s.acc := rfl
@[simp] theorem State.setBus_zf (s : State) (v : Byte) : (s.setBus v).zf = s.zf := rfl
@[simp] theorem State.setBus_halted (s : State) (v : Byte) : (s.setBus v).halted = s.halted := rfl
@[simp] theorem State.setBus_mem (s : State) (v : Byte) : (s.setBus v).mem = s.mem := rfl

@[simp] theorem State.setMar_pc (s : State) (v : Addr) : (s.setMar v).pc = s.pc := rfl
@[simp] theorem State.setMar_stepCtr (s : State) (v : Addr) : (s.setMar v).stepCtr = s.stepCtr := rfl
@[simp] theorem State.setMar_bus (s : State) (v : Addr) : (s.setMar v).bus = s.bus := rfl
@[simp] theorem State.setMar_mar (s : State) (v : Addr) : (s.setMar v).mar = v := rfl
@[simp] theorem State.setMar_ir (s : State) (v : Addr) : (s.setMar v).ir = s.ir := rfl
@[simp] theorem State.setMar_acc (s : State) (v : Addr) : (s.setMar v).acc = s.acc := rfl
@[simp] theorem State.setMar_zf (s : State) (v : Addr) : (s.setMar v).zf = s.zf := rfl
@[simp] theorem State.setMar_halted (s : State) (v : Addr) : (s.setMar v).halted = s.halted := rfl
@[simp] theorem State.setMar_mem (s : State) (v : Addr) : (s.setMar v).mem = s.mem := rfl

@[simp] theorem State.setIr_pc (s : State) (v : Byte) : (s.setIr v).pc = s.pc := rfl
@[simp] theorem State.setIr_stepCtr (s : State) (v : Byte) : (s.setIr v).stepCtr = s.stepCtr := rfl
@[simp] theorem State.setIr_bus (s : State) (v : Byte) : (s.setIr v).bus = s.bus := rfl
@[simp] theorem State.setIr_mar (s : State) (v : Byte) : (s.setIr v).mar = s.mar := rfl
@[simp] theorem State.setIr_ir (s : State) (v : Byte) : (s.setIr v).ir = v := rfl
@[simp] theorem State.setIr_acc (s : State) (v : Byte) : (s.setIr v).acc = s.acc := rfl
@[simp] theorem State.setIr_zf (s : State) (v : Byte) : (s.setIr v).zf = s.zf := rfl
@[simp] theorem State.setIr_halted (s : State) (v : Byte) : (s.setIr v).halted = s.halted := rfl
@[simp] theorem State.setIr_mem (s : State) (v : Byte) : (s.setIr v).mem = s.mem := rfl

@[simp] theorem State.setAcc_pc (s : State) (v : Byte) : (s.setAcc v).pc = s.pc := rfl
@[simp] theorem State.setAcc_stepCtr (s : State) (v : Byte) : (s.setAcc v).stepCtr = s.stepCtr := rfl
@[simp] theorem State.setAcc_bus (s : State) (v : Byte) : (s.setAcc v).bus = s.bus := rfl
@[simp] theorem State.setAcc_mar (s : State) (v : Byte) : (s.setAcc v).mar = s.mar := rfl
@[simp] theorem State.setAcc_ir (s : State) (v : Byte) : (s.setAcc v).ir = s.ir := rfl
@[simp] theorem State.setAcc_acc (s : State) (v : Byte) : (s.setAcc v).acc = v := rfl
@[simp] theorem State.setAcc_zf (s : State) (v : Byte) : (s.setAcc v).zf = s.zf := rfl
@[simp] theorem State.setAcc_halted (s : State) (v : Byte) : (s.setAcc v).halted = s.halted := rfl
@[simp] theorem State.setAcc_mem (s : State) (v : Byte) : (s.setAcc v).mem = s.mem := rfl

@[simp] theorem State.setZf_pc (s : State) (v : Bool) : (s.setZf v).pc = s.pc := rfl
@[simp] theorem State.setZf_stepCtr (s : State) (v : Bool) : (s.setZf v).stepCtr = s.stepCtr := rfl
@[simp] theorem State.setZf_bus (s : State) (v : Bool) : (s.setZf v).bus = s.bus := rfl
@[simp] theorem State.setZf_mar (s : State) (v : Bool) : (s.setZf v).mar = s.mar := rfl
@[simp] theorem State.setZf_ir (s : State) (v : Bool) : (s.setZf v).ir = s.ir := rfl
@[simp] theorem State.setZf_acc (s : State) (v : Bool) : (s.setZf v).acc = s.acc := rfl
@[simp] theorem State.setZf_zf (s : State) (v : Bool) : (s.setZf v).zf = v := rfl
@[simp] theorem State.setZf_halted (s : State) (v : Bool) : (s.setZf v).halted = s.halted := rfl
@[simp] theorem State.setZf_mem (s : State) (v : Bool) : (s.setZf v).mem = s.mem := rfl

@[simp] theorem State.setHalted_pc (s : State) (v : Bool) : (s.setHalted v).pc = s.pc := rfl
@[simp] theorem State.setHalted_stepCtr (s : State) (v : Bool) : (s.setHalted v).stepCtr = s.stepCtr := rfl
@[simp] theorem State.setHalted_bus (s : State) (v : Bool) : (s.setHalted v).bus = s.bus := rfl
@[simp] theorem State.setHalted_mar (s : State) (v : Bool) : (s.setHalted v).mar = s.mar := rfl
@[simp] theorem State.setHalted_ir (s : State) (v : Bool) : (s.setHalted v).ir = s.ir := rfl
@[simp] theorem State.setHalted_acc (s : State) (v : Bool) : (s.setHalted v).acc = s.acc := rfl
@[simp] theorem State.setHalted_zf (s : State) (v : Bool) : (s.setHalted v).zf = s.zf := rfl
@[simp] theorem State.setHalted_halted (s : State) (v : Bool) : (s.setHalted v).halted = v := rfl
@[simp] theorem State.setHalted_mem (s : State) (v : Bool) : (s.setHalted v).mem = s.mem := rfl

@[simp] theorem State.setMem_pc (s : State) (v : Memory) : (s.setMem v).pc = s.pc := rfl
@[simp] theorem State.setMem_stepCtr (s : State) (v : Memory) : (s.setMem v).stepCtr = s.stepCtr := rfl
@[simp] theorem State.setMem_bus (s : State) (v : Memory) : (s.setMem v).bus = s.bus := rfl
@[simp] theorem State.setMem_mar (s : State) (v : Memory) : (s.setMem v).mar = s.mar := rfl
@[simp] theorem State.setMem_ir (s : State) (v : Memory) : (s.setMem v).ir = s.ir := rfl
@[simp] theorem State.setMem_acc (s : State) (v : Memory) : (s.setMem v).acc = s.acc := rfl
@[simp] theorem State.setMem_zf (s : State) (v : Memory) : (s.setMem v).zf = s.zf := rfl
@[simp] theorem State.setMem_halted (s : State) (v : Memory) : (s.setMem v).halted = s.halted := rfl
@[simp] theorem State.setMem_mem (s : State) (v : Memory) : (s.setMem v).mem = v := rfl

@[simp] theorem State.resetWith_pc (m : Memory) : (State.resetWith m).pc = 0#8 := rfl
@[simp] theorem State.resetWith_stepCtr (m : Memory) : (State.resetWith m).stepCtr = 0 := rfl
@[simp] theorem State.resetWith_bus (m : Memory) : (State.resetWith m).bus = 0#8 := rfl
@[simp] theorem State.resetWith_mar (m : Memory) : (State.resetWith m).mar = 0#8 := rfl
@[simp] theorem State.resetWith_ir (m : Memory) : (State.resetWith m).ir = 0#8 := rfl
@[simp] theorem State.resetWith_acc (m : Memory) : (State.resetWith m).acc = 0#8 := rfl
@[simp] theorem State.resetWith_zf (m : Memory) : (State.resetWith m).zf = false := rfl
@[simp] theorem State.resetWith_halted (m : Memory) : (State.resetWith m).halted = false := rfl
@[simp] theorem State.resetWith_mem (m : Memory) : (State.resetWith m).mem = m := rfl

@[simp] theorem State.resetRegisters_pc (s : State) : s.resetRegisters.pc = 0#8 := rfl
@[simp] theorem State.resetRegisters_stepCtr (s : State) : s.resetRegisters.stepCtr = 0 := rfl
@[simp] theorem State.resetRegisters_bus (s : State) : s.resetRegisters.bus = 0#8 := rfl
@[simp] theorem State.resetRegisters_mar (s : State) : s.resetRegisters.mar = 0#8 := rfl
@[simp] theorem State.resetRegisters_ir (s : State) : s.resetRegisters.ir = 0#8 := rfl
@[simp] theorem State.resetRegisters_acc (s : State) : s.resetRegisters.acc = 0#8 := rfl
@[simp] theorem State.resetRegisters_zf (s : State) : s.resetRegisters.zf = false := rfl
@[simp] theorem State.resetRegisters_halted (s : State) : s.resetRegisters.halted = false := rfl
@[simp] theorem State.resetRegisters_mem (s : State) : s.resetRegisters.mem = s.mem := rfl

@[simp] theorem placeBytes_pc (s : State) (b0 b1 : Byte) :
    (placeBytes s b0 b1).pc = s.pc := rfl
@[simp] theorem placeBytes_stepCtr (s : State) (b0 b1 : Byte) :
    (placeBytes s b0 b1).stepCtr = 0 := rfl
@[simp] theorem placeBytes_bus (s : State) (b0 b1 : Byte) :
    (placeBytes s b0 b1).bus = s.bus := rfl
@[simp] theorem placeBytes_mar (s : State) (b0 b1 : Byte) :
    (placeBytes s b0 b1).mar = s.mar := rfl
@[simp] theorem placeBytes_ir (s : State) (b0 b1 : Byte) :
    (placeBytes s b0 b1).ir = if defines refDecoder s.ir then s.ir else 0x00#8 := rfl
@[simp] theorem placeBytes_acc (s : State) (b0 b1 : Byte) :
    (placeBytes s b0 b1).acc = s.acc := rfl
@[simp] theorem placeBytes_zf (s : State) (b0 b1 : Byte) :
    (placeBytes s b0 b1).zf = s.zf := rfl
@[simp] theorem placeBytes_halted (s : State) (b0 b1 : Byte) :
    (placeBytes s b0 b1).halted = false := rfl
@[simp] theorem placeBytes_mem (s : State) (b0 b1 : Byte) :
    (placeBytes s b0 b1).mem = (s.mem.write s.pc b0).write (addrPlus s.pc 1) b1 := rfl

end Sys2Proof.Machine
end

