-- ==== Sys2Proof/Laws/Memory.lean ====
section
/-! SUPPORT. Memory: a read after a write, and the canonical form kept by every operation. -/

namespace Sys2Proof.Machine

/-- In a canonical memory no cell below the first one is listed. -/
theorem Memory.readAt_below (m : Memory) (a : Nat) (h : ∀ c ∈ m, a < c.1) :
    Memory.readAt m a = unsetByte := by
  induction m with
  | nil => rfl
  | cons c rest ih =>
    have hc := h c (by simp)
    have hne : a ≠ c.1 := by omega
    simp only [Memory.readAt, hne, if_false]
    exact ih (fun d hd => h d (by simp [hd]))

/-- Reading the cell just written gives the value written. -/
theorem Memory.readAt_writeAt_same (m : Memory) (a : Nat) (v : Byte) (h : m.wf) :
    Memory.readAt (Memory.writeAt m a v) a = v := by
  induction m with
  | nil => by_cases hv : v = unsetByte <;> simp [Memory.writeAt, Memory.readAt, hv]
  | cons c rest ih =>
    obtain ⟨hp, hc⟩ := h
    rw [List.pairwise_cons] at hp
    have ih' := ih ⟨hp.2, fun d hd => hc d (by simp [hd])⟩
    by_cases hlt : a < c.1
    · by_cases hv : v = unsetByte
      · subst hv
        simp only [Memory.writeAt, hlt, if_true]
        refine Memory.readAt_below _ _ (fun d hd => ?_)
        rcases List.mem_cons.mp hd with rfl | hd
        · exact hlt
        · exact Nat.lt_trans hlt (hp.1 d hd)
      · simp [Memory.writeAt, Memory.readAt, hlt, hv]
    · by_cases heq : a = c.1
      · by_cases hv : v = unsetByte
        · subst hv heq
          simp only [Memory.writeAt, Nat.lt_irrefl, if_false, if_true]
          exact Memory.readAt_below _ _ hp.1
        · simp [Memory.writeAt, Memory.readAt, heq, hv]
      · simp [Memory.writeAt, Memory.readAt, hlt, heq, ih']

/-- A write leaves every other cell alone. -/
theorem Memory.readAt_writeAt_other (m : Memory) (a b : Nat) (v : Byte) (hab : b ≠ a) :
    Memory.readAt (Memory.writeAt m a v) b = Memory.readAt m b := by
  induction m with
  | nil => by_cases hv : v = unsetByte <;> simp [Memory.writeAt, Memory.readAt, hv, hab]
  | cons c rest ih =>
    by_cases hlt : a < c.1
    · by_cases hv : v = unsetByte <;> simp [Memory.writeAt, Memory.readAt, hlt, hv, hab]
    · by_cases heq : a = c.1
      · by_cases hv : v = unsetByte <;>
          simp [Memory.writeAt, Memory.readAt, heq, hv, (heq ▸ hab : b ≠ c.1)]
      · simp [Memory.writeAt, Memory.readAt, hlt, heq, ih]

/-- Every cell of a memory after a write is the one written or one that was there. -/
theorem Memory.mem_writeAt (m : Memory) (a : Nat) (v : Byte) (d : Host.Cell)
    (h : d ∈ Memory.writeAt m a v) : (d = (a, v) ∧ v ≠ unsetByte) ∨ d ∈ m := by
  induction m with
  | nil =>
    by_cases hv : v = unsetByte
    · simp [Memory.writeAt, hv] at h
    · simp only [Memory.writeAt, hv, if_false, List.mem_singleton] at h
      exact .inl ⟨h, hv⟩
  | cons c rest ih =>
    by_cases hv : v = unsetByte
    · right
      simp only [Memory.writeAt, hv, if_true] at h
      split at h
      · exact h
      · split at h
        · exact List.mem_cons_of_mem _ h
        · rcases List.mem_cons.mp h with rfl | h
          · simp
          · rcases ih (hv ▸ h) with ⟨_, hne⟩ | h
            · exact absurd hv hne
            · exact List.mem_cons_of_mem _ h
    · simp only [Memory.writeAt, hv, if_false] at h
      split at h
      · rcases List.mem_cons.mp h with rfl | h
        · exact .inl ⟨rfl, hv⟩
        · exact .inr h
      · split at h
        · rcases List.mem_cons.mp h with rfl | h
          · exact .inl ⟨rfl, hv⟩
          · exact .inr (List.mem_cons_of_mem _ h)
        · rcases List.mem_cons.mp h with rfl | h
          · exact .inr (by simp)
          · rcases ih h with h | h
            · exact .inl h
            · exact .inr (List.mem_cons_of_mem _ h)

/-- A write to an address that exists keeps the canonical form. -/
theorem Memory.writeAt_wf (m : Memory) (a : Nat) (v : Byte) (ha : a < 256) (h : m.wf) :
    Memory.wf (Memory.writeAt m a v) := by
  refine ⟨?_, fun d hd => ?_⟩
  · induction m with
    | nil => by_cases hv : v = unsetByte <;> simp [Memory.writeAt, hv]
    | cons c rest ih =>
      obtain ⟨hp, hc⟩ := h
      have hp' := List.pairwise_cons.mp hp
      have ih' := ih ⟨hp'.2, fun d hd => hc d (by simp [hd])⟩
      by_cases hlt : a < c.1
      · by_cases hv : v = unsetByte
        · simpa [Memory.writeAt, hlt, hv] using hp
        · simp only [Memory.writeAt, hlt, hv, if_true, if_false]
          refine List.pairwise_cons.mpr ⟨fun d hd => ?_, hp⟩
          rcases List.mem_cons.mp hd with rfl | hd
          · exact hlt
          · exact Nat.lt_trans hlt (hp'.1 d hd)
      · by_cases heq : a = c.1
        · by_cases hv : v = unsetByte
          · simpa [Memory.writeAt, heq, hv] using hp'.2
          · simp only [Memory.writeAt, hlt, hv, if_false]
            rw [if_pos heq]
            exact List.pairwise_cons.mpr ⟨fun d hd => heq ▸ hp'.1 d hd, hp'.2⟩
        · simp only [Memory.writeAt, hlt, heq, if_false]
          refine List.pairwise_cons.mpr ⟨fun d hd => ?_, ih'⟩
          rcases Memory.mem_writeAt rest a v d hd with ⟨rfl, _⟩ | hd
          · exact Nat.lt_of_le_of_ne (Nat.not_lt.mp hlt) (Ne.symm heq)
          · exact hp'.1 d hd
  · rcases Memory.mem_writeAt m a v d hd with ⟨rfl, hv⟩ | hd
    · exact ⟨ha, hv⟩
    · exact h.2 d hd

/-- Reading the cell just written, by address. -/
@[simp] theorem Memory.read_write_same (m : Memory) (a : Addr) (v : Byte) (h : m.wf) :
    (m.write a v).read a = v :=
  Memory.readAt_writeAt_same m a.toNat v h

/-- A write leaves every other address alone. -/
theorem Memory.read_write_other (m : Memory) (a b : Addr) (v : Byte) (hab : b ≠ a) :
    (m.write a v).read b = m.read b :=
  Memory.readAt_writeAt_other m a.toNat b.toNat v (fun h => hab (BitVec.eq_of_toNat_eq h))

/-- A write keeps the canonical form. -/
theorem Memory.write_wf (m : Memory) (a : Addr) (v : Byte) (h : m.wf) : (m.write a v).wf :=
  Memory.writeAt_wf m a.toNat v a.isLt h

/-- Memory with nothing listed is canonical, and so is the memory of the reset state. -/
theorem Memory.nil_wf : Memory.wf [] := ⟨List.Pairwise.nil, by simp⟩

theorem State.reset_mem_wf : State.reset.mem.wf := Memory.nil_wf

/-- Placing an instruction keeps the canonical form. -/
theorem placeBytes_mem_wf (s : State) (b0 b1 : Byte) (h : s.mem.wf) :
    (placeBytes s b0 b1).mem.wf :=
  Memory.write_wf _ _ _ (Memory.write_wf _ _ _ h)

end Sys2Proof.Machine
end

