-- ==== Sys2Proof/Laws/Cycle.lean ====
section
/-! SUPPORT. The decoder's lookups, and what one cycle can do under each word of `REF_DECODER`. -/

namespace Sys2Proof.Machine

/-! ## Lookups -/

theorem lookup_append (t u : DecoderTable) (k : Nat) (op : Byte) (h : defines t op = false) :
    lookup (t ++ u) k op = lookup u k op := by
  induction t with
  | nil => rfl
  | cons e rest ih =>
    simp only [defines, List.any_cons, Bool.or_eq_false_iff, decide_eq_false_iff_not] at h
    simp only [List.cons_append, lookup, h.1, and_false, if_false]
    exact ih h.2

/-- The lookup in the entries of one micro-program, under its own opcode. -/
theorem lookup_entriesFrom (op : Byte) (rest : DecoderTable) (prog : List ControlWord) (j k : Nat)
    (h : defines rest op = false) :
    lookup (entriesFrom op j prog ++ rest) k op =
      if j ≤ k then prog.getD (k - j) emptyWord else emptyWord := by
  induction prog generalizing j with
  | nil =>
    have : lookup rest k op = emptyWord := by
      have := lookup_append rest [] k op h
      rwa [List.append_nil] at this
    simp [entriesFrom, this]
  | cons w ws ih =>
    simp only [entriesFrom, List.cons_append, lookup, and_true, ih]
    rcases Nat.lt_trichotomy j k with hjk | hjk | hjk
    · have h1 : j ≠ k := Nat.ne_of_lt hjk
      obtain ⟨d, rfl⟩ : ∃ d, k = j + 1 + d := ⟨k - (j + 1), by omega⟩
      have h2 : j + 1 + d - j = d + 1 := by omega
      have h3 : j + 1 + d - (j + 1) = d := by omega
      simp [h1, h2, h3, Nat.le_of_lt hjk]
    · subst hjk; simp
    · have h1 : j ≠ k := by omega
      have h2 : ¬ j ≤ k := by omega
      have h3 : ¬ j + 1 ≤ k := by omega
      simp [h1, h2, h3]

theorem defines_entriesFrom_other (op op' : Byte) (prog : List ControlWord) (j : Nat)
    (h : op ≠ op') : defines (entriesFrom op j prog) op' = false := by
  induction prog generalizing j with
  | nil => rfl
  | cons w ws ih =>
    have := ih (j + 1)
    simp only [defines] at this
    simp [entriesFrom, defines, h, this]

theorem lookup_undefined (t : DecoderTable) (k : Nat) (op : Byte) (h : defines t op = false) :
    lookup t k op = emptyWord := by
  have := lookup_append t [] k op h
  rwa [List.append_nil] at this

/-- The block of `op`'s own entries decides the lookup. -/
theorem lookup_block_same (op : Byte) (p : List ControlWord) (t : DecoderTable) (k : Nat)
    (h : defines t op = false) :
    lookup (entriesFrom op 0 p ++ t) k op = p.getD k emptyWord := by
  rw [lookup_entriesFrom op t p 0 k h, if_pos (Nat.zero_le k), Nat.sub_zero]

/-- The block of another opcode's entries is passed over. -/
theorem lookup_block_other (o op : Byte) (p : List ControlWord) (t : DecoderTable) (k : Nat)
    (h : o ≠ op) : lookup (entriesFrom o 0 p ++ t) k op = lookup t k op :=
  lookup_append _ t k op (defines_entriesFrom_other o op p 0 h)

/-- `REF_DECODER` as six blocks, one after another. -/
theorem refDecoder_blocks : refDecoder =
    entriesFrom opLdi 0 microLdi ++ (entriesFrom opAdi 0 microAdi ++
      (entriesFrom opInc 0 microInc ++ (entriesFrom opJmp 0 microJmp ++
        (entriesFrom opJz 0 microJz ++ (entriesFrom opHlt 0 microHlt ++ []))))) := by
  simp only [refDecoder, entriesOf, List.append_assoc, List.append_nil]

theorem defines_append (t u : DecoderTable) (op : Byte) :
    defines (t ++ u) op = (defines t op || defines u op) := List.any_append

theorem defines_entriesFrom_same (op : Byte) (w : ControlWord) (prog : List ControlWord)
    (j : Nat) : defines (entriesFrom op j (w :: prog)) op = true := by
  simp [defines, entriesFrom]

/-- The defined opcodes of `REF_DECODER` (spec/30_encoding.md R54). -/
theorem defines_refDecoder_iff (op : Byte) :
    defines refDecoder op = true ↔
      op = opLdi ∨ op = opAdi ∨ op = opInc ∨ op = opJmp ∨ op = opJz ∨ op = opHlt := by
  constructor
  · intro h
    by_contra hn
    simp only [not_or] at hn
    obtain ⟨h0, h1, h2, h3, h4, h5⟩ := hn
    rw [refDecoder_blocks] at h
    simp only [defines_append, defines_entriesFrom_other _ op _ 0 (Ne.symm h0),
      defines_entriesFrom_other _ op _ 0 (Ne.symm h1),
      defines_entriesFrom_other _ op _ 0 (Ne.symm h2),
      defines_entriesFrom_other _ op _ 0 (Ne.symm h3),
      defines_entriesFrom_other _ op _ 0 (Ne.symm h4),
      defines_entriesFrom_other _ op _ 0 (Ne.symm h5), Bool.false_or] at h
    exact absurd h (by simp [defines])
  · rintro (rfl | rfl | rfl | rfl | rfl | rfl) <;> decide

theorem microprogramOfOpcode_undefined (op : Byte) (h : defines refDecoder op = false) :
    microprogramOfOpcode op = [] := by
  have := mt (defines_refDecoder_iff op).mpr (by simp [h])
  simp only [not_or] at this
  obtain ⟨h0, h1, h2, h3, h4, h5⟩ := this
  unfold microprogramOfOpcode
  rw [if_neg h0, if_neg h1, if_neg h2, if_neg h3, if_neg h4, if_neg h5]

/-- `REF_DECODER` at a key: the word of the opcode's micro-program at that step, else empty. -/
theorem lookup_refDecoder (k : Nat) (op : Byte) :
    lookup refDecoder k op = (microprogramOfOpcode op).getD k emptyWord := by
  by_cases h : defines refDecoder op = true
  · rw [refDecoder_blocks]
    rcases (defines_refDecoder_iff op).mp h with rfl | rfl | rfl | rfl | rfl | rfl
    · exact lookup_block_same _ _ _ _ (by decide)
    · rw [lookup_block_other _ _ _ _ _ (by decide)]
      exact lookup_block_same _ _ _ _ (by decide)
    · iterate 2 rw [lookup_block_other _ _ _ _ _ (by decide)]
      exact lookup_block_same _ _ _ _ (by decide)
    · iterate 3 rw [lookup_block_other _ _ _ _ _ (by decide)]
      exact lookup_block_same _ _ _ _ (by decide)
    · iterate 4 rw [lookup_block_other _ _ _ _ _ (by decide)]
      exact lookup_block_same _ _ _ _ (by decide)
    · iterate 5 rw [lookup_block_other _ _ _ _ _ (by decide)]
      exact lookup_block_same _ _ _ _ (by decide)
  · have h' : defines refDecoder op = false := by simpa using h
    rw [lookup_undefined _ _ _ h', microprogramOfOpcode_undefined op h']
    rfl

/-! The micro-program of each defined opcode. -/

@[simp] theorem microprogramOfOpcode_ldi : microprogramOfOpcode 0x00#8 = microLdi := rfl
@[simp] theorem microprogramOfOpcode_adi : microprogramOfOpcode 0x01#8 = microAdi := rfl
@[simp] theorem microprogramOfOpcode_inc : microprogramOfOpcode 0x03#8 = microInc := rfl
@[simp] theorem microprogramOfOpcode_jmp : microprogramOfOpcode 0x04#8 = microJmp := rfl
@[simp] theorem microprogramOfOpcode_jz : microprogramOfOpcode 0x05#8 = microJz := rfl
@[simp] theorem microprogramOfOpcode_hlt : microprogramOfOpcode 0x06#8 = microHlt := rfl

/-! ## Each line, said once: the fields an effect writes, the others as they were -/

theorem effPco_eq (cw : ControlWord) (s : State) :
    effPco cw s = { s with bus := if has cw .pco then s.pc else s.bus } := by
  cases h : has cw .pco
  · simp [effPco, h]
  · simp [effPco, h]; rfl

theorem effPcinc_eq (cw : ControlWord) (s : State) :
    effPcinc cw s = { s with pc := if has cw .pcinc then s.pc + 1#8 else s.pc } := by
  cases h : has cw .pcinc
  · simp [effPcinc, h]
  · simp [effPcinc, h]; rfl

theorem effPcin_eq (cw : ControlWord) (s : State) :
    effPcin cw s = { s with pc := if has cw .pcin then s.bus else s.pc } := by
  cases h : has cw .pcin
  · simp [effPcin, h]
  · simp [effPcin, h]; rfl

theorem effMari_eq (cw : ControlWord) (s : State) :
    effMari cw s = { s with mar := if has cw .mari then s.bus else s.mar } := by
  cases h : has cw .mari
  · simp [effMari, h]
  · simp [effMari, h]; rfl

theorem effMo_eq (cw : ControlWord) (port : Addr → Byte) (s : State) :
    effMo cw port s = { s with bus := if has cw .mo then port s.mar else s.bus } := by
  cases h : has cw .mo
  · simp [effMo, h]
  · simp [effMo, h]; rfl

theorem effAccl_eq (cw : ControlWord) (s : State) :
    effAccl cw s = { s with
      acc := if has cw .accl then s.bus else s.acc,
      zf := if has cw .accl then zfAfterResult s.zf s.bus else s.zf } := by
  cases h : has cw .accl
  · simp [effAccl, h]
  · simp [effAccl, h]; rfl

theorem effAcca_eq (cw : ControlWord) (s : State) :
    effAcca cw s = { s with
      acc := if has cw .acca then s.acc + s.bus else s.acc,
      zf := if has cw .acca then zfAfterResult s.zf (s.acc + s.bus) else s.zf } := by
  cases h : has cw .acca
  · simp [effAcca, h]
  · simp [effAcca, h]; rfl

theorem effAcco_eq (cw : ControlWord) (s : State) :
    effAcco cw s = { s with bus := if has cw .acco then s.acc else s.bus } := by
  cases h : has cw .acco
  · simp [effAcco, h]
  · simp [effAcco, h]; rfl

theorem effIri_eq (cw : ControlWord) (s : State) :
    effIri cw s = { s with ir := if has cw .iri then s.bus else s.ir } := by
  cases h : has cw .iri
  · simp [effIri, h]
  · simp [effIri, h]; rfl

theorem effZfc_eq (cw : ControlWord) (s : State) :
    effZfc cw s = { s with zf := if has cw .zfc then false else s.zf } := by
  cases h : has cw .zfc
  · simp [effZfc, h]
  · simp [effZfc, h]; rfl

theorem effZfs_eq (cw : ControlWord) (s : State) :
    effZfs cw s = { s with zf := if has cw .zfs then true else s.zf } := by
  cases h : has cw .zfs
  · simp [effZfs, h]
  · simp [effZfs, h]; rfl

theorem effZfo_eq (cw : ControlWord) (s : State) :
    effZfo cw s = { s with bus := if has cw .zfo then zfToByte s.zf else s.bus } := by
  cases h : has cw .zfo
  · simp [effZfo, h]
  · simp [effZfo, h]; rfl

theorem effHalt_eq (cw : ControlWord) (s : State) :
    effHalt cw s = { s with halted := if has cw .halt then true else s.halted } := by
  cases h : has cw .halt
  · simp [effHalt, h]
  · simp [effHalt, h]; rfl

theorem effAccinc_eq (cw : ControlWord) (s : State) :
    effAccinc cw s = { s with acc := if has cw .accinc then s.acc + 1#8 else s.acc } := by
  cases h : has cw .accinc
  · simp [effAccinc, h]
  · simp [effAccinc, h]; rfl

theorem advanceStep_eq (cw : ControlWord) (s : State) :
    advanceStep cw s = { s with stepCtr := if has cw .sr then 0 else s.stepCtr + 1 } := by
  cases h : has cw .sr <;> simp [advanceStep, h] <;> rfl

/-! ## One cycle -/

/-- No control word writes memory. -/
@[simp] theorem applyWord_mem (cw : ControlWord) (port : Addr → Byte) (s : State) :
    (applyWord cw port s).mem = s.mem := by
  simp only [applyWord, applyEffects, advanceStep, effPco, effPcinc, effPcin, effMari, effMo,
    effAccl, effAcca, effAcco, effIri, effZfc, effZfs, effZfo, effHalt, effAccinc, apply_ite State.mem,
    State.setStep_mem, State.setPc_mem, State.setBus_mem, State.setMar_mem, State.setIr_mem,
    State.setAcc_mem, State.setZf_mem, State.setHalted_mem, ite_self]

/-- The step counter after any word. -/
@[simp] theorem applyWord_stepCtr (cw : ControlWord) (port : Addr → Byte) (s : State) :
    (applyWord cw port s).stepCtr = if has cw .sr then 0 else s.stepCtr + 1 := by
  simp only [applyWord, applyEffects, advanceStep, effPco, effPcinc, effPcin, effMari, effMo,
    effAccl, effAcca, effAcco, effIri, effZfc, effZfs, effZfo, effHalt, effAccinc,
    apply_ite State.stepCtr, State.setStep_stepCtr, State.setPc_stepCtr, State.setBus_stepCtr,
    State.setMar_stepCtr, State.setIr_stepCtr, State.setAcc_stepCtr, State.setZf_stepCtr,
    State.setHalted_stepCtr, ite_self]

theorem cycle_halted (dec : DecoderTable) (s : State) (h : s.halted = true) :
    cycle dec s = s := by simp [cycle, cycleOn, h]

/-- What a cycle of a running machine is. -/
theorem cycle_running (dec : DecoderTable) (s : State) (h : s.halted = false) :
    cycle dec s = applyWord (lookup dec s.stepCtr s.ir) s.mem.read s := by
  simp [cycle, cycleOn, h]

@[simp] theorem cycle_mem (dec : DecoderTable) (s : State) : (cycle dec s).mem = s.mem := by
  by_cases h : s.halted = true
  · rw [cycle_halted dec s h]
  · rw [cycle_running dec s (by simpa using h), applyWord_mem]

/-- Several clock edges one after another. -/
theorem cycles_add (dec : DecoderTable) (m n : Nat) (s : State) :
    cycles dec (m + n) s = cycles dec n (cycles dec m s) := by
  induction m generalizing s with
  | zero => simp [cycles]
  | succ m ih => rw [Nat.succ_add]; exact ih (cycle dec s)

theorem cycles_succ_last (dec : DecoderTable) (n : Nat) (s : State) :
    cycles dec (n + 1) s = cycle dec (cycles dec n s) := cycles_add dec n 1 s

/-! ## The words of `REF_DECODER`, one lemma each: everything the cycle does -/

theorem applyWord_empty (port : Addr → Byte) (s : State) :
    applyWord emptyWord port s = { s with stepCtr := s.stepCtr + 1 } := rfl

theorem applyWord_pco_mari (port : Addr → Byte) (s : State) :
    applyWord (wordOf [.pco, .mari]) port s =
      { s with bus := s.pc, mar := s.pc, stepCtr := s.stepCtr + 1 } := rfl

theorem applyWord_mo_iri (port : Addr → Byte) (s : State) :
    applyWord (wordOf [.mo, .iri]) port s =
      { s with bus := port s.mar, ir := port s.mar, stepCtr := s.stepCtr + 1 } := rfl

theorem applyWord_pcinc (port : Addr → Byte) (s : State) :
    applyWord (wordOf [.pcinc]) port s =
      { s with pc := s.pc + 1#8, stepCtr := s.stepCtr + 1 } := rfl

theorem applyWord_mo_accl (port : Addr → Byte) (s : State) :
    applyWord (wordOf [.mo, .accl]) port s =
      { s with bus := port s.mar, acc := port s.mar, zf := zfAfterResult s.zf (port s.mar),
               stepCtr := s.stepCtr + 1 } := rfl

theorem applyWord_mo_acca (port : Addr → Byte) (s : State) :
    applyWord (wordOf [.mo, .acca]) port s =
      { s with bus := port s.mar, acc := s.acc + port s.mar,
               zf := zfAfterResult s.zf (s.acc + port s.mar), stepCtr := s.stepCtr + 1 } := rfl

theorem applyWord_pcinc_sr (port : Addr → Byte) (s : State) :
    applyWord (wordOf [.pcinc, .sr]) port s = { s with pc := s.pc + 1#8, stepCtr := 0 } := rfl

theorem applyWord_accinc_sr (port : Addr → Byte) (s : State) :
    applyWord (wordOf [.accinc, .sr]) port s = { s with acc := s.acc + 1#8, stepCtr := 0 } := rfl

theorem applyWord_mo (port : Addr → Byte) (s : State) :
    applyWord (wordOf [.mo]) port s =
      { s with bus := port s.mar, stepCtr := s.stepCtr + 1 } := rfl

theorem applyWord_pcin_sr (port : Addr → Byte) (s : State) :
    applyWord (wordOf [.pcin, .sr]) port s = { s with pc := s.bus, stepCtr := 0 } := rfl

theorem applyWord_zfo (port : Addr → Byte) (s : State) :
    applyWord (wordOf [.zfo]) port s =
      { s with bus := zfToByte s.zf, stepCtr := s.stepCtr + 1 } := rfl

theorem applyWord_accl (port : Addr → Byte) (s : State) :
    applyWord (wordOf [.accl]) port s =
      { s with acc := s.bus, zf := zfAfterResult s.zf s.bus, stepCtr := s.stepCtr + 1 } := rfl

theorem applyWord_pco_acca (port : Addr → Byte) (s : State) :
    applyWord (wordOf [.pco, .acca]) port s =
      { s with bus := s.pc, acc := s.acc + s.pc, zf := zfAfterResult s.zf (s.acc + s.pc),
               stepCtr := s.stepCtr + 1 } := rfl

theorem applyWord_acco (port : Addr → Byte) (s : State) :
    applyWord (wordOf [.acco]) port s =
      { s with bus := s.acc, stepCtr := s.stepCtr + 1 } := rfl

theorem applyWord_halt_sr (port : Addr → Byte) (s : State) :
    applyWord (wordOf [.halt, .sr]) port s = { s with halted := true, stepCtr := 0 } := rfl

end Sys2Proof.Machine
end

