-- ==== Sys2Proof/Machine/Ports.lean ====
section
/-! DEFINITION. The ports of the block, the clock edge and the reset port (spec/10_state.md R28 to
R30), and the physical realisation of the decoder ROM and of the step counter
(spec/00_scope.md R7, spec/30_encoding.md R50, R51). -/

namespace Sys2Proof.Machine

/-- The input ports, `clk` apart: an edge is one application of `blockEdge` (R28). -/
structure Inputs where
  /-- `rst`, synchronous, active high. -/
  rst : Bool
  /-- `rom_data`, the control word read at `rom_addr`. -/
  romData : ControlWord
  /-- `mem_rdata`, the content of cell `mem_addr`. -/
  memRdata : Byte
deriving DecidableEq, Repr

/-- The output ports of a block with `bits` = `STEP_BITS` (R28). -/
structure Outputs (bits : Nat) where
  romAddr : BitVec (bits + 8)
  memAddr : Addr
  memRe : Bool
  halted : Bool
  obsPc : Byte
  obsMar : Byte
  obsIr : Byte
  obsBus : Byte
  obsAcc : Byte
  obsZf : Bool
  obsStep : BitVec bits
  obsCw : ControlWord
deriving DecidableEq, Repr

/-- The value a counter of `bits` bits holds for the count `k`: it "saturates at
`2^STEP_BITS - 1`" (spec/00_scope.md R7). -/
def saturate (bits k : Nat) : Nat := min k (2 ^ bits - 1)

/-- `STEP` on a port of `bits` bits. -/
def stepPort (bits : Nat) (s : State) : BitVec bits := BitVec.ofNat bits (saturate bits s.stepCtr)

/-- `rom_addr = {STEP, IR}`, the step in the high bits (R50). -/
def romAddr (bits : Nat) (s : State) : BitVec (bits + 8) := stepPort bits s ++ s.ir

/-- The word of a decoder ROM at the key: the table's, but the empty word at the highest index,
where the saturated counter rests (R7). -/
def romLookup (bits : Nat) (dec : DecoderTable) (k : Nat) (op : Byte) : ControlWord :=
  if k < 2 ^ bits - 1 then lookup dec k op else emptyWord

/-- The content of the decoder ROM at an address; "every word that the table does not define holds
0x0000" (R51). -/
def romContents (bits : Nat) (dec : DecoderTable) (a : BitVec (bits + 8)) : ControlWord :=
  romLookup bits dec (a.toNat / 256) (BitVec.ofNat 8 a.toNat)

/-- `mem_addr`: the value `MAR` has after the `MARI` effect of this cycle's word
(spec/20_memory.md R37), which is `MAR'` and so `MAR` itself when halted
(spec/40_control_lines.md R82). -/
def memAddr (cw : ControlWord) (s : State) : Addr :=
  if s.halted then s.mar else (effMari cw <| effPcin cw <| effPcinc cw <| effPco cw s).mar

/-- The output ports while `rom_data` carries `cw` (R28, R37; for `mem_re` and `obs_cw` of a halted
block see notes/assumptions/8.md). -/
def outputs (bits : Nat) (cw : ControlWord) (s : State) : Outputs bits where
  romAddr := romAddr bits s
  memAddr := memAddr cw s
  memRe := has cw .mo
  halted := s.halted
  obsPc := s.pc
  obsMar := s.mar
  obsIr := s.ir
  obsBus := s.bus
  obsAcc := s.acc
  obsZf := s.zf
  obsStep := stepPort bits s
  obsCw := cw

/-- The ports of a block of the implementation's own `STEP_BITS`. -/
def configuredOutputs (cw : ControlWord) (s : State) : Outputs Config.stepBits :=
  outputs Config.stepBits cw s

/-- One rising edge of `clk` with the given values on the input ports (R29, R30): reset wins over
halted, a halted block keeps its state, otherwise every element takes its next value at once. -/
def blockEdge (inp : Inputs) (s : State) : State :=
  if inp.rst then s.resetRegisters
  else if s.halted then s
  else applyWord inp.romData (fun _ => inp.memRdata) s

/-- One rising edge of the block wired to its decoder table and its memory; `rst` is an input here
only, `step` stands for edges without it (notes/assumptions/9.md). -/
def clockEdge (dec : DecoderTable) (rst : Bool) (s : State) : State :=
  if rst then s.resetRegisters else cycle dec s

/-- A sequence of rising edges, each with the value `rst` has at it. -/
def clockEdges (dec : DecoderTable) : List Bool → State → State
  | [], s => s
  | r :: rest, s => clockEdges dec rest (clockEdge dec r s)

/-- One cycle of the physical realisation: the ROM lookup, and a step counter that saturates
(R7). -/
def physicalCycle (bits : Nat) (dec : DecoderTable) (s : State) : State :=
  if s.halted then s
  else
    let t := applyWord (romLookup bits dec s.stepCtr s.ir) s.mem.read s
    t.setStep (saturate bits t.stepCtr)

/-- `n` clock edges of the physical realisation. -/
def physicalCycles (bits : Nat) (dec : DecoderTable) : Nat → State → State
  | 0, s => s
  | n + 1, s => physicalCycles bits dec n (physicalCycle bits dec s)

end Sys2Proof.Machine
end

