-- ==== Sys2Proof/Machine/RunControl.lean ====
section
/-! DEFINITION. The host's side of a run: loading an image, the run loop with its budget and its
two outcomes (spec/60_exceptions.md R122 to R124), and the trace (spec/10_state.md R31). -/

namespace Sys2Proof.Machine

/-- Store the entries of an image one after another. -/
def storeEntries : Image → Memory → Memory
  | [], m => m
  | e :: rest, m => storeEntries rest (m.writeAt e.addr (BitVec.ofNat 8 e.value))

/-- The loader: memory holds the image and 0 elsewhere; an image with an entry that cannot be
represented is refused (spec/20_memory.md R34), as is one that gives an address twice
(notes/assumptions/6.md). -/
def loadImage (img : Image) : Option Memory :=
  if img.wf then some (storeEntries img []) else none

/-- Load the image, then apply reset (spec/70_reset_and_hazards.md R133). -/
def boot (img : Image) : Option State := (loadImage img).map State.resetWith

/-- What the run-control entry point returns: final state, cycles executed, whether halted
(R122). -/
structure RunResult where
  final : State
  executed : Nat
  halted : Bool
deriving DecidableEq, Repr

/-- The loop of R122 with `budget` cycles left and `n` executed. -/
def runLoop (dec : DecoderTable) : Nat → Nat → State → RunResult
  | 0, n, s => ⟨s, n, s.halted⟩
  | budget + 1, n, s =>
    if s.halted then ⟨s, n, true⟩ else runLoop dec budget (n + 1) (cycle dec s)

/-- `Run(IMAGE, DECODER, BUDGET)` (R122); none where the loader refuses the image. -/
def run (img : Image) (dec : DecoderTable) (budget : Nat) : Option RunResult :=
  (boot img).map (runLoop dec budget 0)

/-- The two outcomes of a run (R124). -/
inductive RunOutcome where
  | halted
  | outOfBudget
deriving DecidableEq, Repr

/-- The outcome of a run: the `HALTED` flag decides, not the count (R123). -/
def RunResult.outcome (r : RunResult) : RunOutcome := if r.halted then .halted else .outOfBudget

/-- The "full CPU State snapshot": the eight elements other than memory (R31). -/
structure Snapshot where
  step : Nat
  pc : Addr
  ir : Byte
  bus : Byte
  acc : Byte
  zf : Bool
  mar : Addr
  halted : Bool
deriving DecidableEq, Repr

/-- The snapshot of a state. -/
def snapshot (s : State) : Snapshot where
  step := s.stepCtr
  pc := s.pc
  ir := s.ir
  bus := s.bus
  acc := s.acc
  zf := s.zf
  mar := s.mar
  halted := s.halted

/-- One trace record: the key before the cycle, the control word applied, the state after it
(R31). -/
structure TraceRecord where
  keyStep : Nat
  keyIr : Byte
  word : ControlWord
  after : Snapshot
deriving DecidableEq, Repr

/-- The record of the cycle that starts in `s`. -/
def recordOf (dec : DecoderTable) (s : State) : TraceRecord where
  keyStep := s.stepCtr
  keyIr := s.ir
  word := lookup dec s.stepCtr s.ir
  after := snapshot (cycle dec s)

/-- The trace of at most `n` clock edges, one record a cycle; an edge of a halted machine is not a
cycle (spec/40_control_lines.md R80; notes/assumptions/10.md). -/
def trace (dec : DecoderTable) : Nat → State → List TraceRecord
  | 0, _ => []
  | n + 1, s => if s.halted then [] else recordOf dec s :: trace dec n (cycle dec s)

end Sys2Proof.Machine
end

