-- ==== Sys2Proof/Machine/Assembler.lean ====
section
/-! DEFINITION. The assembler's notation (spec/30_encoding.md R60, R61): a line of text to a
statement, statements to a memory image (notes/assumptions/7.md). -/

namespace Sys2Proof.Machine

/-- The instruction a statement stands for; none where the operand does not fit the format. -/
def instrOf : Mnemonic → Option Nat → Option Instr
  | .LDI, some n => some (.ldi (BitVec.ofNat 8 n))
  | .ADI, some n => some (.adi (BitVec.ofNat 8 n))
  | .JMP, some n => some (.jmp (BitVec.ofNat 8 n))
  | .INC, none => some .inc
  | .JZ, none => some .jz
  | .HLT, none => some .hlt
  | _, _ => none

/-- The statement that is written for an instruction (R54, R60). -/
def stmtOf : Instr → Stmt
  | .ldi imm => .op .LDI (some imm.toNat)
  | .adi imm => .op .ADI (some imm.toNat)
  | .inc => .op .INC none
  | .jmp target => .op .JMP (some target.toNat)
  | .jz => .op .JZ none
  | .hlt => .op .HLT none

/-- Bytes at consecutive addresses from `a` (R60). -/
def entriesAt : Nat → List Byte → Image
  | _, [] => []
  | a, b :: rest => ⟨a, b.toNat⟩ :: entriesAt (a + 1) rest

/-- Assemble from address `a` on; none where a statement is not well formed (R60, R61). -/
def assembleFrom : Nat → List Stmt → Option Image
  | _, [] => some []
  | a, st :: rest =>
    if st.wf then
      match st with
      | .org n => assembleFrom n rest
      | .gap n => assembleFrom (a + n) rest
      | .db n => (assembleFrom (a + 1) rest).map (⟨a, n⟩ :: ·)
      | .op m operand =>
        match instrOf m operand with
        | none => none
        | some i => (assembleFrom (a + i.length) rest).map (entriesAt a (encode i) ++ ·)
    else none

/-- "The first statement is at address 0 unless an `ORG` directive says otherwise" (R60). -/
def assemble (prog : List Stmt) : Option Image := assembleFrom 0 prog

/-- The words of a line, separated by spaces; `cur` holds the letters of the word being read, last
first. -/
def wordsFrom (cur : List Char) : List Char → List (List Char)
  | [] => if cur = [] then [] else [cur.reverse]
  | c :: rest =>
    if c = ' ' then
      if cur = [] then wordsFrom [] rest else cur.reverse :: wordsFrom [] rest
    else wordsFrom (c :: cur) rest

/-- The value of a decimal digit. -/
def decDigit (c : Char) : Option Nat :=
  if '0'.toNat ≤ c.toNat ∧ c.toNat ≤ '9'.toNat then some (c.toNat - '0'.toNat) else none

/-- The value of a hexadecimal digit, either case. -/
def hexDigit (c : Char) : Option Nat :=
  if 'a'.toNat ≤ c.toNat ∧ c.toNat ≤ 'f'.toNat then some (c.toNat - 'a'.toNat + 10)
  else if 'A'.toNat ≤ c.toNat ∧ c.toNat ≤ 'F'.toNat then some (c.toNat - 'A'.toNat + 10)
  else decDigit c

/-- The value of a list of digits, `n` the value of those already read. -/
def digitsFrom (base : Nat) (digit : Char → Option Nat) (n : Nat) : List Char → Option Nat
  | [] => some n
  | c :: rest => (digit c).bind (fun d => digitsFrom base digit (base * n + d) rest)

/-- "an unsigned number 0 to 255 in decimal or `0x` hexadecimal" (R60); the range is checked by
`Stmt.wf`. -/
def parseNumber : List Char → Option Nat
  | [] => none
  | '0' :: 'x' :: [] => none
  | '0' :: 'x' :: ds => digitsFrom 16 hexDigit 0 ds
  | ds => digitsFrom 10 decDigit 0 ds

/-- The mnemonic a word names (R54). -/
def parseMnemonic (w : List Char) : Option Mnemonic :=
  if w = ['L', 'D', 'I'] then some .LDI
  else if w = ['A', 'D', 'I'] then some .ADI
  else if w = ['I', 'N', 'C'] then some .INC
  else if w = ['J', 'M', 'P'] then some .JMP
  else if w = ['J', 'Z'] then some .JZ
  else if w = ['H', 'L', 'T'] then some .HLT
  else none

/-- A word and its operand: a directive (R61) or a statement (R60). -/
def parseWithOperand (w : List Char) (n : Nat) : Option Stmt :=
  if w = ['O', 'R', 'G'] then some (.org n)
  else if w = ['G', 'A', 'P'] then some (.gap n)
  else if w = ['D', 'B'] then some (.db n)
  else (parseMnemonic w).map (fun m => .op m (some n))

/-- One line: `MNEMONIC`, `MNEMONIC operand` or a directive with its number (R60, R61). -/
def parseLine (line : List Char) : Option Stmt :=
  match wordsFrom [] line with
  | [w] => (parseMnemonic w).map (fun m => .op m none)
  | [w, num] => (parseNumber num).bind (parseWithOperand w)
  | _ => none

/-- A program text, one statement per line (R60). -/
def parseProgram : List (List Char) → Option (List Stmt)
  | [] => some []
  | line :: rest => (parseLine line).bind (fun st => (parseProgram rest).map (st :: ·))

end Sys2Proof.Machine
end

