-- ==== Sys2Proof/Machine/MicroStep.lean ====
section
/-! DEFINITION. The machine's own step relation: one cycle, one control word, over any decoder table
(spec/00_scope.md R4: the micro-step level "is complete by itself and is what a model should take
as the step relation"). The instruction-level `step`, which the host's interface asks for, is
another machine over the same states; its runs are runs of this one
(notes/assumptions/1.md, `Obligations.RunsOfStepsAreRunsOfCycles`). -/

namespace Sys2Proof.Machine

/-- One step of the machine at its own level: one cycle under the table, the identity when halted
(spec/00_scope.md R4, spec/40_control_lines.md R62, R80). -/
def microStep (dec : DecoderTable) (s : State) : Host.Outcome State Fault Refusal :=
  .next (cycle dec s)

/-- The machine at the micro-step level, as a state type, a step and the state after reset; the
decoder table is its parameter (R4, R8). -/
def microCore (dec : DecoderTable) : Host.Core :=
  { State := State
    Fault := Fault
    Refusal := Refusal
    step := microStep dec
    reset := State.reset }

end Sys2Proof.Machine
end

