-- ==== Sys2Proof/Safety.lean ====
section
/-! DEFINITION. The terms claims about the machine are made in: safe runs, halting and idling,
completed instructions, and the invariant of the machine. -/

namespace Sys2Proof.Machine

/-- The machine can go on from `s`: the step neither faults nor refuses. -/
def Safe (s : State) : Prop := ∃ t, step s = .next t

/-- The run from `s` sets `HALTED` in the end (spec/60_exceptions.md R125). -/
def Halts (dec : DecoderTable) (s : State) : Prop := ∃ n, (cycles dec n s).halted = true

/-- From `s` on every cycle only adds 1 to `STEP`: the machine hangs without halting
(spec/42_instructions.md R109). -/
def IdlesForEver (dec : DecoderTable) (s : State) : Prop :=
  ∀ n, cycles dec n s = { s with stepCtr := s.stepCtr + n }

/-- The bytes of the instruction stand at `PC` and after it, modulo 256. -/
def HoldsAtPc (i : Instr) (s : State) : Prop := memHolds s.mem s.pc (encode i) = true

/-- `n` cycles of `REF_DECODER` lead from `s` to `t`, and `STEP` is 0 at none of the cycle
boundaries between: `t` is "the state at the first later cycle boundary with `STEP = 0`"
(spec/42_instructions.md R102). -/
def CompletesIn (n : Nat) (s t : State) : Prop :=
  cycles refDecoder n s = t ∧ t.stepCtr = 0 ∧
    ∀ k, 0 < k → k < n → (cycles refDecoder k s).stepCtr ≠ 0

/-- An invariant of every cycle under `REF_DECODER`. -/
structure MachineInv (s : State) : Prop where
  /-- Memory is in its canonical form. -/
  memCanonical : s.mem.wf
  /-- Steps 0 and 1 are looked up under a defined opcode, so that the fetch does its work
  (spec/41_microprograms.md R92). -/
  fetchDefined : s.stepCtr ≤ 1 → defines refDecoder s.ir = true
  /-- A defined opcode keeps `STEP` inside its micro-program (spec/00_scope.md R7). -/
  stepInProgram : defines refDecoder s.ir = true →
    s.stepCtr < (microprogramOfOpcode s.ir).length
  /-- A halted machine is at the end of `HLT` (spec/42_instructions.md R108). -/
  haltedAfterHlt : s.halted = true → s.stepCtr = 0 ∧ s.ir = opHlt
  /-- After step 0 the bus and `MAR` hold `PC` (spec/41_microprograms.md R89). -/
  afterStep0 : s.stepCtr = 1 → s.bus = s.pc ∧ s.mar = s.pc
  /-- After step 1, and for ever on an undefined opcode, the bus and `IR` hold the byte at `PC`
  and `MAR` its address (R90, spec/42_instructions.md R109). -/
  afterStep1 : 2 ≤ s.stepCtr → (s.stepCtr = 2 ∨ defines refDecoder s.ir = false) →
    s.bus = s.ir ∧ s.ir = s.mem.read s.pc ∧ s.mar = s.pc
  /-- After step 2 of a defined opcode `PC` is one past the opcode byte (R91). -/
  afterStep2 : s.stepCtr = 3 → defines refDecoder s.ir = true →
    s.pc = s.mar + 1#8 ∧ s.bus = s.ir ∧ s.ir = s.mem.read s.mar

end Sys2Proof.Machine
end

