-- ==== Sys2Proof/Laws/Operations.lean ====
section
/-! SUPPORT. What each shared operation can do: the memory port, the fetched instruction, the run
of a micro-program, the loader's store. -/

namespace Sys2Proof.Machine

/-- `zfAfterResult` as a disjunction. -/
theorem zfAfterResult_eq (zf : Bool) (v : Byte) :
    zfAfterResult zf v = (zf || decide (v = 0#8)) := by
  by_cases h : v = 0#8 <;> cases zf <;> simp [zfAfterResult, h]

/-- At `PC` the port shows the opcode byte. -/
@[simp] theorem portShowing_pc (op : Byte) (rest : List Byte) (s : State) :
    portShowing (op :: rest) s s.pc = op := by
  simp [portShowing]

/-- One past `PC` the port shows the operand byte. -/
@[simp] theorem portShowing_pc_succ (op imm : Byte) (s : State) :
    portShowing [op, imm] s (s.pc + 1#8) = imm := by
  have : s.pc + 1#8 - s.pc = 1#8 := by
    rw [BitVec.add_comm, BitVec.add_sub_cancel]
  simp [portShowing, this]

/-- Where memory holds the bytes of an instruction at `PC`, the port is memory itself. -/
theorem portShowing_eq_read (i : Instr) (s : State) (h : HoldsAtPc i s) :
    portShowing (encode i) s = s.mem.read := by
  funext a
  have sub0 : ∀ d : Byte, (a - s.pc).toNat = d.toNat → a = s.pc + d := by
    intro d hd
    have := BitVec.eq_of_toNat_eq hd
    rw [← this, BitVec.add_comm, BitVec.sub_add_cancel]
  have two : ∀ b0 b1 : Byte, memHolds s.mem s.pc [b0, b1] = true →
      portShowing [b0, b1] s a = s.mem.read a := by
    intro b0 b1 hb
    simp only [memHolds, addrPlus, Bool.and_true, Bool.and_eq_true, decide_eq_true_eq] at hb
    unfold portShowing
    rcases hk : (a - s.pc).toNat with _ | _ | k
    · have := sub0 0#8 (by simpa using hk)
      simp only [List.getD_cons_zero]
      rw [this, BitVec.add_zero]; exact hb.1.symm
    · have := sub0 1#8 (by simpa using hk)
      simp only [Nat.zero_add, List.getD_cons_succ, List.getD_cons_zero]
      rw [this]; exact (of_decide_eq_true hb.2).symm
    · simp
  have one : ∀ b0 : Byte, memHolds s.mem s.pc [b0] = true →
      portShowing [b0] s a = s.mem.read a := by
    intro b0 hb
    simp only [memHolds, Bool.and_true, decide_eq_true_eq] at hb
    unfold portShowing
    rcases hk : (a - s.pc).toNat with _ | k
    · have := sub0 0#8 (by simpa using hk)
      simp only [List.getD_cons_zero]
      rw [this, BitVec.add_zero]; exact hb.symm
    · simp
  cases i with
  | ldi imm => exact two _ _ h
  | adi imm => exact two _ _ h
  | inc => exact one _ h
  | jmp t => exact two _ _ h
  | jz => exact one _ h
  | hlt => exact one _ h

/-- The fetched instruction in terms of the decoder. -/
theorem fetched_eq_some_iff (s : State) (i : Instr) :
    fetched s = some i ↔
      atBoundary s = true ∧ ∃ rest, decode (bytesAtPc s) = .ok (i, rest) := by
  unfold fetched
  by_cases hb : atBoundary s = true
  · simp only [hb, if_true, true_and]
    cases hd : decode (bytesAtPc s) with
    | error e => simp
    | ok p => obtain ⟨j, r⟩ := p; simp
  · simp [hb]

/-- A boundary, written out. -/
theorem atBoundary_iff (s : State) :
    atBoundary s = true ↔
      s.stepCtr = 0 ∧ s.halted = false ∧ defines refDecoder s.ir = true := by
  simp [atBoundary, and_assoc]

/-- A halted block presents the stored `MAR` to memory. -/
@[simp] theorem memAddr_halted (cw : ControlWord) (s : State) (h : s.halted = true) :
    memAddr cw s = s.mar := by
  simp [memAddr, h]

/-- A running block presents what `MARI` loads, else the stored `MAR`. -/
theorem memAddr_running (cw : ControlWord) (s : State) (h : s.halted = false) :
    memAddr cw s =
      if has cw .mari then (if has cw .pco then s.pc else s.bus) else s.mar := by
  simp [memAddr, h, effPco_eq, effPcinc_eq, effPcin_eq, effMari_eq]

/-- A run of the machine at the micro-step level is a number of cycles. -/
theorem microCore_run (dec : DecoderTable) (n : Nat) (s : State) :
    (microCore dec).run n s = .next (cycles dec n s) := by
  induction n generalizing s with
  | zero => rfl
  | succ n ih => exact ih (cycle dec s)

theorem applyWords_halted (port : Addr → Byte) (ws : List ControlWord) (s : State)
    (h : s.halted = true) : applyWords port ws s = s := by
  cases ws with
  | nil => rfl
  | cons w rest => simp [applyWords, h]

/-- A run of words leaves memory alone. -/
@[simp] theorem applyWords_mem (port : Addr → Byte) (ws : List ControlWord) (s : State) :
    (applyWords port ws s).mem = s.mem := by
  induction ws generalizing s with
  | nil => rfl
  | cons w rest ih =>
    unfold applyWords
    split
    · rfl
    · rw [ih, applyWord_mem]

/-- Storing the entries of an image keeps the canonical form. -/
theorem storeEntries_wf (img : Image) (m : Memory) (hi : ∀ e ∈ img, e.addr < 256) (h : m.wf) :
    Memory.wf (storeEntries img m) := by
  induction img generalizing m with
  | nil => exact h
  | cons e rest ih =>
    exact ih _ (fun d hd => hi d (by simp [hd]))
      (Memory.writeAt_wf m e.addr _ (hi e (by simp)) h)

end Sys2Proof.Machine
end

