-- ==== Sys2Proof/Laws/PerInstr.lean ====
section
/-! SUPPORT. Per-instruction families: a statement about an instruction as syntax, and one lemma
per constructor. -/

namespace Sys2Proof.Laws.RoundTrip

/-- Decoding what the encoder wrote, followed by anything, gives the instruction back and leaves
the rest; the instruction is well formed and its length is the number of its bytes, which is also
what its opcode byte says. -/
def Statement (i : Instr) : Prop :=
  i.wf = true ∧ (encode i).length = i.length ∧
    (∀ op, (encode i).head? = some op → lengthOfOpcode op = i.length) ∧
    ∀ rest, decode (encode i ++ rest) = .ok (i, rest)

theorem ldi (imm : Byte) : Statement (.ldi imm) :=
  ⟨rfl, rfl, fun op h => by cases h; rfl, fun _ => rfl⟩

theorem adi (imm : Byte) : Statement (.adi imm) :=
  ⟨rfl, rfl, fun op h => by cases h; rfl, fun _ => rfl⟩

theorem inc : Statement .inc :=
  ⟨rfl, rfl, fun op h => by cases h; rfl, fun _ => rfl⟩

theorem jmp (target : Byte) : Statement (.jmp target) :=
  ⟨rfl, rfl, fun op h => by cases h; rfl, fun _ => rfl⟩

theorem jz : Statement .jz :=
  ⟨rfl, rfl, fun op h => by cases h; rfl, fun _ => rfl⟩

theorem hlt : Statement .hlt :=
  ⟨rfl, rfl, fun op h => by cases h; rfl, fun _ => rfl⟩

end Sys2Proof.Laws.RoundTrip
end

