-- ==== Sys2Proof/Certificates/Slice0/Obligations.lean ====
section
/-! DEFINITION. The statements for the provers. A docstring names the rules of spec/ a statement
formalises, or says that it rests on a consequence the spec draws itself ("derived") or on a choice
of the model. -/

open Sys2Proof
open Sys2Proof.Machine

/-! ## The six instructions -/

/-- spec/42_instructions.md R103, which the spec derives from R92 and R93. `exec` gives the "State
after" of the rule whatever the entry state of a running machine (that `exec` takes the operand
from the instruction is the model's choice, notes/assumptions/2.md); and where memory holds
`00 imm` at `PC`, six cycles lead there. -/
def Obligations.LdiLoadsItsOperand : Prop :=
  ∀ (imm : Byte) (s t : State), s.halted = false →
    t = { s with acc := imm, zf := s.zf || decide (imm = 0#8), pc := s.pc + 2#8,
                 mar := s.pc + 1#8, bus := imm, ir := 0x00#8, stepCtr := 0 } →
    exec (.ldi imm) s = .next t ∧
      (atBoundary s = true → s.mem.read s.pc = 0x00#8 → s.mem.read (s.pc + 1#8) = imm →
        step s = .next t ∧ CompletesIn 6 s t)

/-- R104, derived by the spec from R92 and R94; as above for the bytes `01 imm`. -/
def Obligations.AdiAddsItsOperand : Prop :=
  ∀ (imm : Byte) (s t : State), s.halted = false →
    t = { s with acc := s.acc + imm, zf := s.zf || decide (s.acc + imm = 0#8),
                 pc := s.pc + 2#8, mar := s.pc + 1#8, bus := imm, ir := 0x01#8, stepCtr := 0 } →
    exec (.adi imm) s = .next t ∧
      (atBoundary s = true → s.mem.read s.pc = 0x01#8 → s.mem.read (s.pc + 1#8) = imm →
        step s = .next t ∧ CompletesIn 6 s t)

/-- R105, derived by the spec from R92 and R95: `ZF` is untouched, also when `ACC` wraps. -/
def Obligations.IncIncrementsAndKeepsZf : Prop :=
  ∀ (s t : State), s.halted = false →
    t = { s with acc := s.acc + 1#8, pc := s.pc + 1#8, mar := s.pc, bus := 0x03#8, ir := 0x03#8,
                 stepCtr := 0 } →
    exec .inc s = .next t ∧
      (atBoundary s = true → s.mem.read s.pc = 0x03#8 → step s = .next t ∧ CompletesIn 4 s t)

/-- R106, derived by the spec from R92 and R96: every target is legal, `ACC` and `ZF` keep. -/
def Obligations.JmpSetsPcToItsOperand : Prop :=
  ∀ (target : Byte) (s t : State), s.halted = false →
    t = { s with pc := target, mar := s.pc + 1#8, bus := target, ir := 0x04#8, stepCtr := 0 } →
    exec (.jmp target) s = .next t ∧
      (atBoundary s = true → s.mem.read s.pc = 0x04#8 → s.mem.read (s.pc + 1#8) = target →
        step s = .next t ∧ CompletesIn 6 s t)

/-- R107, derived by the spec from R92 and R97: `PC`, `ACC` and `BUS` all become `n(1) + ZF`, and
`ZF` is 1 afterwards in every case. -/
def Obligations.JzSkipsOneByteIffZf : Prop :=
  ∀ (s t : State) (p : Addr), s.halted = false →
    p = (if s.zf then s.pc + 2#8 else s.pc + 1#8) →
    t = { s with pc := p, acc := p, bus := p, zf := true, mar := s.pc, ir := 0x05#8,
                 stepCtr := 0 } →
    exec .jz s = .next t ∧
      (atBoundary s = true → s.mem.read s.pc = 0x05#8 → step s = .next t ∧ CompletesIn 8 s t)

/-- R108, derived by the spec from R92 and R98: the state after `HLT` is final. -/
def Obligations.HltHaltsForGood : Prop :=
  ∀ (s t : State), s.halted = false →
    t = { s with halted := true, pc := s.pc + 1#8, mar := s.pc, bus := 0x06#8, ir := 0x06#8,
                 stepCtr := 0 } →
    exec .hlt s = .next t ∧ (∀ n, cycles refDecoder n t = t) ∧ step t = .next t ∧
      (atBoundary s = true → s.mem.read s.pc = 0x06#8 → step s = .next t ∧ CompletesIn 4 s t)

/-- R109, derived by the spec from R63, R81 and R92: an undefined opcode `u` at `PC` hangs the
machine for ever without halting it. -/
def Obligations.UndefinedOpcodeHangsForEver : Prop :=
  ∀ (s : State) (u : Byte), atBoundary s = true → (u = 0x02#8 ∨ 7 ≤ u.toNat) →
    s.mem.read s.pc = u →
    cycles refDecoder 1 s = { s with bus := s.pc, mar := s.pc, stepCtr := 1 } ∧
      (∀ k, cycles refDecoder (2 + k) s =
        { s with mar := s.pc, bus := u, ir := u, stepCtr := 2 + k }) ∧
      ¬ Halts refDecoder s

/-- The frame of each instruction, for every state of a running machine: memory, read at any
address, is what it was; `ACC` changes only under `LDI`, `ADI`, `INC`, `JZ`; `ZF` only under `LDI`,
`ADI`, `JZ`, and is never cleared; `HALTED` changes only under `HLT`; `IR` is the opcode and `STEP`
0 afterwards (R15, R17, R18, R19, R21, R36, R102 to R108). In a state that is no instruction
boundary, or whose memory does not hold the instruction at `PC`, what `exec` answers is the model's
choice (notes/assumptions/2.md), and the claims about such states rest on it. -/
def Obligations.InstructionsChangeOnlyTheirTargets : Prop :=
  ∀ (i : Instr) (s t : State), s.halted = false → exec i s = .next t →
    (∀ a, t.mem.read a = s.mem.read a) ∧
    ((i = .hlt ∨ ∃ target, i = .jmp target) → t.acc = s.acc) ∧
    ((i = .hlt ∨ i = .inc ∨ ∃ target, i = .jmp target) → t.zf = s.zf) ∧
    (s.zf = true → t.zf = true) ∧
    (i ≠ .hlt → t.halted = false) ∧ (i = .hlt → t.halted = true) ∧
    t.ir = (encode i).headD 0#8 ∧ t.stepCtr = 0

/-- Under `HALTED = 1` no cycle is processed (R80); that `exec` then leaves the state as it is is
the model's choice (notes/assumptions/2.md). -/
def Obligations.HaltedMachineExecutesNothing : Prop :=
  ∀ (i : Instr) (s : State), s.halted = true → exec i s = .next s

/-! ## The step and the cycles it is made of -/

/-- What one step is (the model's choice, notes/assumptions/1.md): the decoded instruction at a
boundary, nothing when halted, one cycle elsewhere. -/
def Obligations.StepRunsTheDecodedInstruction : Prop :=
  (∀ (s : State) (i : Instr) (rest : List Byte), atBoundary s = true →
    decode [s.mem.read s.pc, s.mem.read (s.pc + 1#8)] = .ok (i, rest) →
    i.wf = true ∧ step s = exec i s) ∧
  (∀ s : State, s.halted = true → step s = .next s) ∧
  (∀ s : State, s.halted = false →
    (atBoundary s = false ∨
      ∃ e, decode [s.mem.read s.pc, s.mem.read (s.pc + 1#8)] = .error e) →
    step s = .next (cycle refDecoder s))

/-- The step of the model is a run of whole cycles of the micro-step machine, as many as the
instruction takes (R99, R146), one where none is fetched (spec/00_scope.md R4: the micro-step level
governs; that a step takes a whole instruction is the model's choice, notes/assumptions/1.md). -/
def Obligations.StepIsAWholeNumberOfCycles : Prop :=
  ∀ s : State,
    step s = .next (cycles refDecoder (((fetched s).map cyclesOf).getD 1) s)

/-- The machine has no stuck state and no fault (R116, R125, the second derived by the spec):
every instruction and every step answer a next state. (That `exec` answers one in a state that does
not fetch the instruction is the model's choice, notes/assumptions/2.md.) -/
def Obligations.NothingFaultsOrStops : Prop :=
  (∀ s : State, Safe s) ∧ ∀ (i : Instr) (s : State), ∃ t, exec i s = .next t

/-- `MachineInv` is kept by every cycle. -/
def Obligations.EveryCycleKeepsTheMachineInvariant : Prop :=
  ∀ s : State, MachineInv s → MachineInv (cycle refDecoder s)

/-- `MachineInv` is kept by every step. -/
def Obligations.EveryStepKeepsTheMachineInvariant : Prop :=
  ∀ s t : State, MachineInv s → step s = .next t → MachineInv t

/-- `MachineInv` holds after reset, whatever canonical memory the loader left. -/
def Obligations.ResetMeetsTheMachineInvariant : Prop :=
  MachineInv State.reset ∧ ∀ m : Memory, m.wf → MachineInv (State.resetWith m)

/-- R92, derived by the spec from R63 and R89 to R91: the fetch prefix works under a defined
previous opcode and does nothing under an undefined one; `PC` moves iff the byte fetched is a
defined opcode. -/
def Obligations.FetchPrefixNeedsADefinedOpcode : Prop :=
  ∀ s : State, s.stepCtr = 0 → s.halted = false →
    (defines refDecoder s.ir = true →
      cycles refDecoder 1 s = { s with bus := s.pc, mar := s.pc, stepCtr := 1 } ∧
      cycles refDecoder 2 s = { s with bus := s.mem.read s.pc, mar := s.pc,
                                       ir := s.mem.read s.pc, stepCtr := 2 } ∧
      cycles refDecoder 3 s = { s with
        bus := s.mem.read s.pc, mar := s.pc, ir := s.mem.read s.pc, stepCtr := 3,
        pc := if defines refDecoder (s.mem.read s.pc) then s.pc + 1#8 else s.pc }) ∧
    (defines refDecoder s.ir = false →
      ∀ n, cycles refDecoder n s = { s with stepCtr := n })

/-- At an instruction boundary the values left in `BUS`, `MAR` and (among defined opcodes) `IR`
have no effect on anything from the second cycle on: a consequence of R24 and R92. -/
def Obligations.LeftoverBusMarIrDoNotMatter : Prop :=
  ∀ (s : State) (b m r : Byte) (n : Nat), atBoundary s = true → defines refDecoder r = true →
    cycles refDecoder (2 + n) { s with bus := b, mar := m, ir := r } =
      cycles refDecoder (2 + n) s

/-! ## Control words -/

/-- R82, derived by the spec from R62 to R80: the sequential cycle is the chain of values. -/
def Obligations.CycleIsTheChainOfValues : Prop :=
  (∀ (cw : ControlWord) (port : Addr → Byte) (s : State),
    applyWord cw port s = chain cw port s) ∧
  ∀ (dec : DecoderTable) (s : State),
    cycle dec s = if s.halted then s else chain (lookup dec s.stepCtr s.ir) s.mem.read s

/-- R83, derived by the spec from R82: what each consumer reads, and the priority `ZFO` over
`ACCO` over `MO` over `PCO` for the value left on the bus. -/
def Obligations.BusDriversHaveAFixedPriority : Prop :=
  ∀ (cw : ControlWord) (port : Addr → Byte) (s t : State) (early late sum : Byte),
    t = applyWord cw port s →
    early = (if has cw .pco then s.pc else s.bus) →
    late = (if has cw .mo then port t.mar else early) →
    sum = (if has cw .acca then (if has cw .accl then late else s.acc) + late
      else if has cw .accl then late else s.acc) →
    t.pc = (if has cw .pcin then early else if has cw .pcinc then s.pc + 1#8 else s.pc) ∧
    t.mar = (if has cw .mari then early else s.mar) ∧
    t.acc = (if has cw .accinc then sum + 1#8 else sum) ∧
    t.ir = (if has cw .iri then (if has cw .acco then sum else late) else s.ir) ∧
    t.bus = (if has cw .zfo then (if t.zf then 0x01#8 else 0x00#8)
      else if has cw .acco then sum else late)

/-- R70, R71, R74 and R75 for every control word: load and add set `ZF` on a zero result and never
clear it, a non-zero result leaves it, `ZFC` overrides them, `ZFS` overrides `ZFC`, `ACCINC` does
not count. `loaded` is the bus value load and add read, `sum` what `ACCA` writes (R82, R83, derived
by the spec). -/
def Obligations.ZfIsSetByZeroAndClearedByZfcOnly : Prop :=
  ∀ (cw : ControlWord) (port : Addr → Byte) (s t : State) (early loaded sum : Byte),
    t = applyWord cw port s →
    early = (if has cw .pco then s.pc else s.bus) →
    loaded = (if has cw .mo then port t.mar else early) →
    sum = (if has cw .accl then loaded else s.acc) + loaded →
    (has cw .zfs = true → t.zf = true) ∧
    (has cw .zfs = false → has cw .zfc = true → t.zf = false) ∧
    (s.zf = true → has cw .zfc = false → t.zf = true) ∧
    (has cw .zfs = false → has cw .zfc = false →
      (t.zf = true ↔ s.zf = true ∨ (has cw .accl = true ∧ loaded = 0#8) ∨
        (has cw .acca = true ∧ sum = 0#8))) ∧
    (has cw .zfs = false → has cw .zfc = false → has cw .accl = false → has cw .acca = false →
      t.zf = s.zf) ∧
    (has cw .zfs = false → has cw .zfc = false → has cw .accinc = false →
      (has cw .accl = true ∨ has cw .acca = true) → t.acc = 0#8 → t.zf = true) ∧
    (has cw .zfs = false → has cw .zfc = false → s.zf = false → t.zf = true →
      has cw .accl = true ∨ has cw .acca = true)

/-- The "each line alone" reading of R65 to R79: the whole state after a word with one line. -/
def Obligations.EachLineAloneDoesItsTransfer : Prop :=
  ∀ (port : Addr → Byte) (s : State),
    applyWord 0x0001#15 port s = { s with bus := s.pc, stepCtr := s.stepCtr + 1 } ∧
    applyWord 0x0002#15 port s = { s with pc := s.pc + 1#8, stepCtr := s.stepCtr + 1 } ∧
    applyWord 0x0800#15 port s = { s with pc := s.bus, stepCtr := s.stepCtr + 1 } ∧
    applyWord 0x0004#15 port s = { s with mar := s.bus, stepCtr := s.stepCtr + 1 } ∧
    applyWord 0x0008#15 port s = { s with bus := port s.mar, stepCtr := s.stepCtr + 1 } ∧
    applyWord 0x0010#15 port s = { s with acc := s.bus, zf := s.zf || decide (s.bus = 0#8),
                                          stepCtr := s.stepCtr + 1 } ∧
    applyWord 0x0020#15 port s = { s with
      acc := s.acc + s.bus, zf := s.zf || decide (s.acc + s.bus = 0#8),
      stepCtr := s.stepCtr + 1 } ∧
    applyWord 0x0040#15 port s = { s with bus := s.acc, stepCtr := s.stepCtr + 1 } ∧
    applyWord 0x0080#15 port s = { s with ir := s.bus, stepCtr := s.stepCtr + 1 } ∧
    applyWord 0x1000#15 port s = { s with zf := false, stepCtr := s.stepCtr + 1 } ∧
    applyWord 0x2000#15 port s = { s with zf := true, stepCtr := s.stepCtr + 1 } ∧
    applyWord 0x4000#15 port s = { s with bus := if s.zf then 0x01#8 else 0x00#8,
                                          stepCtr := s.stepCtr + 1 } ∧
    applyWord 0x0200#15 port s = { s with halted := true, stepCtr := s.stepCtr + 1 } ∧
    applyWord 0x0400#15 port s = { s with acc := s.acc + 1#8, stepCtr := s.stepCtr + 1 } ∧
    applyWord 0x0100#15 port s = { s with stepCtr := 0 } ∧
    applyWord 0x0000#15 port s = { s with stepCtr := s.stepCtr + 1 }

/-- R84, derived by the spec from R82: every row of its table of combinations. -/
def Obligations.CombinedLinesActInTheFixedOrder : Prop :=
  ∀ (port : Addr → Byte) (s : State),
    (applyWord (wordOf [.pco, .pcinc]) port s).bus = s.pc ∧
    (applyWord (wordOf [.pco, .pcinc]) port s).pc = s.pc + 1#8 ∧
    (applyWord (wordOf [.pcinc, .pcin]) port s).pc = s.bus ∧
    (applyWord (wordOf [.pco, .pcin]) port s).pc = s.pc ∧
    (applyWord (wordOf [.pco, .pcin]) port s).bus = s.pc ∧
    (applyWord (wordOf [.pco, .pcinc, .pcin]) port s).pc = s.pc ∧
    (applyWord (wordOf [.pco, .pcinc, .pcin]) port s).bus = s.pc ∧
    (applyWord (wordOf [.pco, .mari, .mo]) port s).mar = s.pc ∧
    (applyWord (wordOf [.pco, .mari, .mo]) port s).bus = port s.pc ∧
    (applyWord (wordOf [.mo, .pcin]) port s).pc = s.bus ∧
    (applyWord (wordOf [.mo, .pcin]) port s).bus = port s.mar ∧
    (applyWord (wordOf [.zfo, .accl]) port s).acc = s.bus ∧
    (applyWord (wordOf [.zfo, .accl]) port s).bus =
      (if s.zf || decide (s.bus = 0#8) then 0x01#8 else 0x00#8) ∧
    (applyWord (wordOf [.acco, .pcin]) port s).pc = s.bus ∧
    (applyWord (wordOf [.accl, .acca]) port s).acc = s.bus + s.bus ∧
    (applyWord (wordOf [.accl, .acca]) port s).zf =
      (s.zf || decide (s.bus = 0x00#8 ∨ s.bus = 0x80#8)) ∧
    (applyWord (wordOf [.acca, .acco]) port s).bus = s.acc + s.bus ∧
    (applyWord (wordOf [.accl, .accinc]) port s).acc = s.bus + 1#8 ∧
    (applyWord (wordOf [.accl, .accinc]) port s).zf = (s.zf || decide (s.bus = 0#8)) ∧
    (applyWord (wordOf [.acco, .accinc]) port s).bus = s.acc ∧
    (applyWord (wordOf [.acco, .accinc]) port s).acc = s.acc + 1#8 ∧
    (applyWord (wordOf [.acco, .iri]) port s).ir = s.acc ∧
    (s.bus = 0#8 → (applyWord (wordOf [.accl, .zfc]) port s).zf = false) ∧
    (applyWord (wordOf [.zfc, .zfs]) port s).zf = true ∧
    (applyWord (wordOf [.zfc, .zfo]) port s).bus = 0x00#8 ∧
    (applyWord (wordOf [.halt, .accinc]) port s).halted = true ∧
    (applyWord (wordOf [.halt, .accinc]) port s).acc = s.acc + 1#8 ∧
    (applyWord (wordOf [.halt]) port s).halted = true ∧
    (applyWord (wordOf [.halt]) port s).stepCtr = s.stepCtr + 1 ∧
    (applyWord (wordOf [.iri, .sr]) port s).ir = s.bus ∧
    (applyWord (wordOf [.iri, .sr]) port s).stepCtr = 0

/-- R77 and R79: the halting cycle is completed in full, the step advance with it; every word
advances or resets `STEP`; nothing but `HALT` sets `HALTED`, and no word clears it. -/
def Obligations.HaltingCycleCompletes : Prop :=
  ∀ (cw : ControlWord) (port : Addr → Byte) (s : State),
    (applyWord cw port s).halted = (s.halted || has cw .halt) ∧
    (applyWord cw port s).stepCtr = (if has cw .sr then 0 else s.stepCtr + 1) ∧
    applyWord (cw ||| lineMask .halt) port s = { applyWord cw port s with halted := true }

/-- R48: the mask column of the table, and that distinct lines have distinct bits, so that a word
and its set of lines determine each other (R49). -/
def Obligations.WordsAreSetsOfLines : Prop :=
  allLines.map lineMask =
    [0x0001#15, 0x0002#15, 0x0004#15, 0x0008#15, 0x0010#15, 0x0020#15, 0x0040#15, 0x0080#15,
      0x0100#15, 0x0200#15, 0x0400#15, 0x0800#15, 0x1000#15, 0x2000#15, 0x4000#15] ∧
  (∀ (ls : List ControlLine) (l : ControlLine), has (wordOf ls) l = true ↔ l ∈ ls) ∧
  ∀ cw : ControlWord, wordOf (linesOf cw) = cw

/-- R48 (decision D25): bit 15 of a stored control word is written 0 and ignored on read. -/
def Obligations.RomWordBitFifteenIsIgnored : Prop :=
  ∀ (cw : ControlWord) (w : BitVec 16),
    ofRomWord (toRomWord cw) = cw ∧ (toRomWord cw).getLsbD 15 = false ∧
      ofRomWord (w ||| 0x8000#16) = ofRomWord w

/-! ## The decoder tables -/

/-- R51: a key with no entry yields the empty word, whose cycle only advances `STEP` (R81, derived
by the spec); a ROM word that the table does not define holds 0x0000; under unique keys (R50) an
entry is found under its key. -/
def Obligations.MissingKeyIsANoOp : Prop :=
  (∀ (dec : DecoderTable) (s : State),
    (∀ e ∈ dec, ¬(e.step = s.stepCtr ∧ e.opcode = s.ir)) →
    lookup dec s.stepCtr s.ir = 0x0000#15 ∧
      (s.halted = false → cycle dec s = { s with stepCtr := s.stepCtr + 1 })) ∧
  (∀ (dec : DecoderTable) (bits : Nat) (a : BitVec (bits + 8)),
    (∀ e ∈ dec, ¬(e.step = a.toNat / 256 ∧ e.opcode.toNat = a.toNat % 256)) →
    romContents bits dec a = 0x0000#15) ∧
  ∀ (dec : DecoderTable) (e : DecoderEntry), dec.KeysUnique → e ∈ dec →
    lookup dec e.step e.opcode = e.word

/-- R99: the table of `REF_DECODER`, entry by entry, in hexadecimal, with its cycles column. -/
def Obligations.RefDecoderHasTheListedEntries : Prop :=
  refDecoder =
    [⟨0, 0x00#8, 0x0005#15⟩, ⟨1, 0x00#8, 0x0088#15⟩, ⟨2, 0x00#8, 0x0002#15⟩,
      ⟨3, 0x00#8, 0x0005#15⟩, ⟨4, 0x00#8, 0x0018#15⟩, ⟨5, 0x00#8, 0x0102#15⟩,
      ⟨0, 0x01#8, 0x0005#15⟩, ⟨1, 0x01#8, 0x0088#15⟩, ⟨2, 0x01#8, 0x0002#15⟩,
      ⟨3, 0x01#8, 0x0005#15⟩, ⟨4, 0x01#8, 0x0028#15⟩, ⟨5, 0x01#8, 0x0102#15⟩,
      ⟨0, 0x03#8, 0x0005#15⟩, ⟨1, 0x03#8, 0x0088#15⟩, ⟨2, 0x03#8, 0x0002#15⟩,
      ⟨3, 0x03#8, 0x0500#15⟩,
      ⟨0, 0x04#8, 0x0005#15⟩, ⟨1, 0x04#8, 0x0088#15⟩, ⟨2, 0x04#8, 0x0002#15⟩,
      ⟨3, 0x04#8, 0x0005#15⟩, ⟨4, 0x04#8, 0x0008#15⟩, ⟨5, 0x04#8, 0x0900#15⟩,
      ⟨0, 0x05#8, 0x0005#15⟩, ⟨1, 0x05#8, 0x0088#15⟩, ⟨2, 0x05#8, 0x0002#15⟩,
      ⟨3, 0x05#8, 0x4000#15⟩, ⟨4, 0x05#8, 0x0010#15⟩, ⟨5, 0x05#8, 0x0021#15⟩,
      ⟨6, 0x05#8, 0x0040#15⟩, ⟨7, 0x05#8, 0x0900#15⟩,
      ⟨0, 0x06#8, 0x0005#15⟩, ⟨1, 0x06#8, 0x0088#15⟩, ⟨2, 0x06#8, 0x0002#15⟩,
      ⟨3, 0x06#8, 0x0300#15⟩] ∧
  refDecoder.length = 34 ∧ refDecoder.KeysUnique ∧
  (∀ b : Byte, [Instr.ldi b, .adi b, .inc, .jmp b, .jz, .hlt].map cyclesOf = [6, 6, 4, 6, 8, 4]) ∧
  (∀ e ∈ refDecoder, has e.word .zfc = false ∧ has e.word .zfs = false ∧ e.step ≤ 7) ∧
  ∀ (k : Nat) (op : Byte), (∀ e ∈ refDecoder, ¬(e.step = k ∧ e.opcode = op)) →
    lookup refDecoder k op = 0x0000#15

/-- R88 with the table built from micro-programs: the `s`-th word, `SR` in the last word and in no
earlier one, empty words beyond, and empty words throughout for an opcode without a
micro-program. -/
def Obligations.MicroprogramsEndWithStepReset : Prop :=
  (∀ (i : Instr) (k : Nat),
    lookup refDecoder k ((encode i).headD 0#8) = (microprogramOf i).getD k 0x0000#15 ∧
    (k + 1 = (microprogramOf i).length →
      has (lookup refDecoder k ((encode i).headD 0#8)) .sr = true) ∧
    (k + 1 < (microprogramOf i).length →
      has (lookup refDecoder k ((encode i).headD 0#8)) .sr = false)) ∧
  ∀ (op : Byte) (k : Nat), (∀ i : Instr, (encode i).headD 0#8 ≠ op) →
    lookup refDecoder k op = 0x0000#15

/-- R56: the 250 undefined opcodes, each without an entry at any step; once `IR` holds one, every
cycle is empty, `IR` never changes and the machine idles for ever. -/
def Obligations.UndefinedOpcodesHaveNoEntries : Prop :=
  (∀ op : Byte, defines refDecoder op = false ↔ op = 0x02#8 ∨ 7 ≤ op.toNat) ∧
  ((List.range 256).filter (fun n => !defines refDecoder (BitVec.ofNat 8 n))).length = 250 ∧
  ∀ s : State, defines refDecoder s.ir = false → s.halted = false →
    (∀ k, lookup refDecoder k s.ir = 0x0000#15) ∧ IdlesForEver refDecoder s ∧
      ¬ Halts refDecoder s

/-- R59 and R101: `SUBSET_DECODER` has 20 entries, none for `JMP` and `JZ`, and behaves
identically under every other opcode. -/
def Obligations.SubsetDecoderLacksJmpAndJz : Prop :=
  subsetDecoder.length = 20 ∧
  (∀ k, lookup subsetDecoder k 0x04#8 = 0x0000#15 ∧ lookup subsetDecoder k 0x05#8 = 0x0000#15) ∧
  (∀ (k : Nat) (op : Byte), op ≠ 0x04#8 → op ≠ 0x05#8 →
    lookup subsetDecoder k op = lookup refDecoder k op) ∧
  (∀ s : State, s.ir ≠ 0x04#8 → s.ir ≠ 0x05#8 → cycle subsetDecoder s = cycle refDecoder s) ∧
  ∀ e ∈ subsetDecoder, has e.word .pcin = false ∧ has e.word .zfc = false ∧
    has e.word .zfs = false ∧ has e.word .zfo = false

/-- R134, derived by the spec from R26 and R63: a table without opcode 0x00 never fetches. -/
def Obligations.TableWithoutOpcodeZeroNeverFetches : Prop :=
  ∀ (dec : DecoderTable) (m : Memory), defines dec 0x00#8 = false →
    IdlesForEver dec (State.resetWith m)

/-- R138, derived by the spec from R79: past the last entry of a micro-program that has not
asserted `SR`, the machine idles for ever. -/
def Obligations.RunningPastAMicroprogramIdles : Prop :=
  ∀ (dec : DecoderTable) (s : State), s.halted = false →
    (∀ e ∈ dec, e.opcode = s.ir → e.step < s.stepCtr) →
    IdlesForEver dec s ∧ ¬ Halts dec s

/-! ## Encoding -/

/-- Decode and encode agree, in both directions: exactly the encoder's bytes decode to an
instruction, whatever follows them (R52 to R54). -/
def Obligations.DecodeIsTheInverseOfEncode : Prop :=
  ∀ (i : Instr) (bytes rest : List Byte), i.wf = true →
    (decode bytes = .ok (i, rest) ↔ bytes = encode i ++ rest)

/-- Every instruction meets the round-trip family. -/
def Obligations.EveryInstructionRoundTrips : Prop :=
  ∀ i : Instr, Laws.RoundTrip.Statement i

/-- A few words of the opcode table, written out from its encodings (R52, R54). -/
def Obligations.SpecWordsDecode : Prop :=
  decodeTableWord 16 0x0F00 = some (.ldi 0x0F#8) ∧
  decodeTableWord 16 0x0101 = some (.adi 0x01#8) ∧
  decodeTableWord 8 0x03 = some .inc ∧
  decodeTableWord 16 0x0904 = some (.jmp 0x09#8) ∧
  decodeTableWord 8 0x05 = some .jz ∧
  decodeTableWord 8 0x06 = some .hlt ∧
  decodeTableWord 8 0x02 = none

/-- Which byte lists the decoder refuses, and by which name (R54, R56, R57; the names are the
model's). -/
def Obligations.DecoderRefusesByName : Prop :=
  ∀ (op : Byte) (rest : List Byte),
    (decode (op :: rest) = .error .reservedStore ↔ op = 0x02#8) ∧
    (decode (op :: rest) = .error (.undefinedOpcode op) ↔ 7 ≤ op.toNat) ∧
    (decode (op :: rest) = .error (.noOperand op) ↔
      rest = [] ∧ (op = 0x00#8 ∨ op = 0x01#8 ∨ op = 0x04#8)) ∧
    (defines refDecoder op = true ↔ ∃ p, decode (op :: 0#8 :: rest) = .ok p)

/-- R146, derived by the spec from R99: cycles and memory reads of each instruction. -/
def Obligations.CyclesAndReadsOfEachInstruction : Prop :=
  ∀ b : Byte,
    [Instr.ldi b, .adi b, .inc, .jmp b, .jz, .hlt].map cyclesOf = [6, 6, 4, 6, 8, 4] ∧
    [Instr.ldi b, .adi b, .inc, .jmp b, .jz, .hlt].map readsOf = [2, 2, 1, 2, 1, 1]

/-! ## Flags, halting, memory, reset -/

/-- R17 and R139 (the second derived by the spec): under `REF_DECODER` a set `ZF` stays set, over
any number of cycles and over any step. -/
def Obligations.ZfStaysSetUntilReset : Prop :=
  (∀ (s : State) (n : Nat), s.zf = true → (cycles refDecoder n s).zf = true) ∧
  ∀ s t : State, s.zf = true → step s = .next t → t.zf = true

/-- R139, derived by the spec from R17 and R107: after a `JZ` has run, every later `JZ` skips. -/
def Obligations.EveryJzAfterTheFirstSkips : Prop :=
  ∀ (s u : State) (n : Nat), atBoundary s = true → s.mem.read s.pc = 0x05#8 →
    u = cycles refDecoder (8 + n) s → atBoundary u = true → u.mem.read u.pc = 0x05#8 →
    (cycles refDecoder 8 u).pc = u.pc + 2#8

/-- R80: once `HALTED = 1` every edge with `rst = 0` leaves every element as it is and is not
counted as a cycle; only reset leaves this state. (That the trace has no record of such an edge is
DEDUCED, notes/assumptions/10.md.) -/
def Obligations.HaltedStateIsFinal : Prop :=
  ∀ (dec : DecoderTable) (s : State) (n k : Nat), s.halted = true →
    cycles dec n s = s ∧ clockEdges dec (List.replicate n false) s = s ∧ step s = .next s ∧
    trace dec n s = [] ∧ (runLoop dec n k s).executed = k ∧ (runLoop dec n k s).final = s ∧
    (clockEdge dec true s).halted = false

/-- R36: the machine never writes memory, under any decoder table, by any cycle, instruction, step
or edge. -/
def Obligations.MachineNeverWritesMemory : Prop :=
  (∀ (dec : DecoderTable) (n : Nat) (s : State), (cycles dec n s).mem = s.mem) ∧
  (∀ (dec : DecoderTable) (rs : List Bool) (s : State), (clockEdges dec rs s).mem = s.mem) ∧
  (∀ (i : Instr) (s t : State), exec i s = .next t → t.mem = s.mem) ∧
  ∀ s t : State, step s = .next t → t.mem = s.mem

/-- R34: after loading, a cell holds the image's byte where the image has its address and 0
elsewhere; memory is canonical; an image with an entry that cannot be represented is refused. (That
an address given twice is refused is the model's choice, notes/assumptions/6.md.) -/
def Obligations.LoaderInitialisesEveryCell : Prop :=
  (∀ (img : Image) (m : Memory), loadImage img = some m →
    m.wf ∧ (∀ e ∈ img, m.read (BitVec.ofNat 8 e.addr) = BitVec.ofNat 8 e.value) ∧
    ∀ a : Addr, (∀ e ∈ img, e.addr ≠ a.toNat) → m.read a = 0x00#8) ∧
  (∀ img : Image, (∃ e ∈ img, 256 ≤ e.addr ∨ 256 ≤ e.value) → loadImage img = none) ∧
  ∀ img : Image, (∀ e ∈ img, e.addr < 256 ∧ e.value < 256) →
    img.Pairwise (fun a b => a.addr ≠ b.addr) → ∃ m, loadImage img = some m

/-- R143, derived by the spec from R34, R6 and R103: two unset cells at `PC` run as `LDI 0`. -/
def Obligations.UnsetMemoryRunsAsLdiZero : Prop :=
  ∀ (s t : State), atBoundary s = true → (∀ c ∈ s.mem, c.1 ≠ s.pc.toNat) →
    (∀ c ∈ s.mem, c.1 ≠ (s.pc + 1#8).toNat) →
    t = { s with acc := 0x00#8, zf := true, pc := s.pc + 2#8, mar := s.pc + 1#8, bus := 0x00#8,
                 ir := 0x00#8, stepCtr := 0 } →
    step s = .next t ∧ CompletesIn 6 s t

/-- R26 and R131: the values after reset, `STEP = 0` and `IR = 0` for the first key among them; no reset
value is unspecified, memory is not changed. -/
def Obligations.ResetZeroesEveryRegister : Prop :=
  State.reset.pc = 0#8 ∧ State.reset.stepCtr = 0 ∧ State.reset.bus = 0#8 ∧
    State.reset.mar = 0#8 ∧ State.reset.ir = 0#8 ∧ State.reset.acc = 0#8 ∧
    State.reset.zf = false ∧ State.reset.halted = false ∧ atBoundary State.reset = true ∧
    ∀ (s : State) (a : Addr), s.resetRegisters = { State.reset with mem := s.mem } ∧
      s.resetRegisters.mem.read a = s.mem.read a ∧ State.reset.mem.read a = 0x00#8

/-- R30 and R132: an edge with `rst = 1` resets whatever `HALTED` was and leaves memory, and nothing
else leaves the halted state; so what happened before a reset has no effect on what follows, but
for memory. -/
def Obligations.ResetRestartsTheSameRun : Prop :=
  ∀ (dec : DecoderTable) (before after : List Bool) (s : State),
    clockEdge dec true s = State.resetWith s.mem ∧
    (s.halted = true → clockEdge dec false s = s) ∧
    clockEdges dec (before ++ true :: after) s = clockEdges dec after (State.resetWith s.mem)

/-! ## Ports, realisation, run control, trace, assembler -/

/-- R29 and R37: the block wired to its decoder table and its memory through its ports makes
exactly one cycle per edge, or resets. -/
def Obligations.BlockWithItsPortsWiredIsTheCycle : Prop :=
  ∀ (dec : DecoderTable) (bits : Nat) (rst : Bool) (s : State) (cw : ControlWord),
    cw = lookup dec s.stepCtr s.ir →
    blockEdge ⟨rst, cw, s.mem.read (outputs bits cw s).memAddr⟩ s = clockEdge dec rst s ∧
    ((outputs bits cw s).memRe = false → ∀ b : Byte,
      blockEdge ⟨rst, cw, b⟩ s = clockEdge dec rst s)

/-- R50 and R51: the ROM at `rom_addr` holds the table's word, empty where the table has no entry,
when the highest step index has no entry (R7). -/
def Obligations.RomAtItsAddressHoldsTheTablesWord : Prop :=
  ∀ (bits : Nat) (dec : DecoderTable) (s : State), dec.StepsBelow (2 ^ bits - 1) →
    romContents bits dec (romAddr bits s) = lookup dec s.stepCtr s.ir ∧
    (romAddr bits s).toNat = min s.stepCtr (2 ^ bits - 1) * 256 + s.ir.toNat

/-- R7: a physical block whose counter saturates, with no entry at the highest index, moves every
element but `STEP` exactly as under the unbounded rule, and its `STEP` is the saturated count; for
`REF_DECODER` four bits or more suffice, so a block of the configured width
(notes/assumptions/5.md) does it from reset with every memory. -/
def Obligations.SaturatingCounterIsInvisible : Prop :=
  (∀ (bits : Nat) (dec : DecoderTable) (s : State) (n : Nat), dec.StepsBelow (2 ^ bits - 1) →
    physicalCycles bits dec n (s.setStep (saturate bits s.stepCtr)) =
      (cycles dec n s).setStep (saturate bits (cycles dec n s).stepCtr)) ∧
  (∀ bits, 4 ≤ bits → refDecoder.StepsBelow (2 ^ bits - 1)) ∧
  ∀ (m : Memory) (n : Nat),
    physicalCycles Config.stepBits refDecoder n (State.resetWith m) =
      (cycles refDecoder n (State.resetWith m)).setStep
        (saturate Config.stepBits (cycles refDecoder n (State.resetWith m)).stepCtr)

/-- R124: a run answers, and with one of two outcomes. Halted: `HALTED = 1` in the final state.
Otherwise the budget is used up. The state is the one after exactly the executed cycles. -/
def Obligations.RunHaltsOrUsesUpItsBudget : Prop :=
  ∀ (img : Image) (dec : DecoderTable) (budget : Nat) (s : State), boot img = some s →
    ∃ r : RunResult, run img dec budget = some r ∧
      r.final = cycles dec r.executed s ∧ r.executed ≤ budget ∧
      (r.outcome = .halted ↔ r.final.halted = true) ∧
      (r.outcome = .outOfBudget ↔ r.final.halted = false) ∧
      (r.outcome = .outOfBudget → r.executed = budget)

/-- R123: the halting cycle is counted and later edges are not; a halt on cycle number `BUDGET` is
reported as halted; a budget of 0 runs no cycle. -/
def Obligations.RunCountsTheHaltingCycle : Prop :=
  ∀ (img : Image) (dec : DecoderTable) (s : State), boot img = some s →
    run img dec 0 = some ⟨s, 0, false⟩ ∧
    ∀ (n budget : Nat), (cycles dec n s).halted = false →
      (cycles dec (n + 1) s).halted = true → n + 1 ≤ budget →
      run img dec budget = some ⟨cycles dec (n + 1) s, n + 1, true⟩

/-- R31: the trace has one record for each cycle, with the key before it, the word applied and the
eight elements other than memory after it. -/
def Obligations.TraceRecordsEveryCycle : Prop :=
  ∀ (dec : DecoderTable) (n k : Nat) (s before after : State), k < n →
    before = cycles dec k s → after = cycles dec (k + 1) s → before.halted = false →
    (trace dec n s)[k]? = some
      { keyStep := before.stepCtr
        keyIr := before.ir
        word := lookup dec before.stepCtr before.ir
        after :=
          { step := after.stepCtr
            pc := after.pc
            ir := after.ir
            bus := after.bus
            acc := after.acc
            zf := after.zf
            mar := after.mar
            halted := after.halted } }

/-- R60: statements assemble to their bytes at consecutive addresses from 0, and the loader puts
them there. -/
def Obligations.AssembledProgramLoadsItsBytes : Prop :=
  ∀ prog : List Instr, (prog.flatMap encode).length ≤ 256 →
    ∃ (img : Image) (m : Memory),
      assemble (prog.map stmtOf) = some img ∧ loadImage img = some m ∧
      ∀ a : Addr, m.read a = (prog.flatMap encode).getD a.toNat 0x00#8

/-! ## The two step relations -/

/-- R4: the machine's own step relation is one cycle (`microStep`, `microCore`), and the
instruction-level machine of the host's interface (notes/assumptions/1.md) is the same machine seen
less often: a run of `k` steps is a run of at least `k` cycles, and past any number of cycles a step
ends within eight. -/
def Obligations.RunsOfStepsAreRunsOfCycles : Prop :=
  (∀ (k : Nat) (s : State), ∃ n, k ≤ n ∧
    core.run k s = (microCore refDecoder).run n s) ∧
  ∀ (n : Nat) (s : State), ∃ k m, k ≤ m ∧ n ≤ m ∧ m < n + 8 ∧
    core.run k s = (microCore refDecoder).run m s

/-- R82 and R37 (the first derived by the spec): `mem_addr` is `MAR'`, the `MAR` that the edge
leaves, under every word and whatever memory answers; so it is `MAR` itself when the block is
halted. -/
def Obligations.MemAddrIsTheNextMar : Prop :=
  ∀ (bits : Nat) (cw : ControlWord) (s : State),
    (∀ b : Byte, (outputs bits cw s).memAddr = (blockEdge ⟨false, cw, b⟩ s).mar) ∧
    (s.halted = true → (outputs bits cw s).memAddr = s.mar) ∧
    ∀ dec : DecoderTable, cw = lookup dec s.stepCtr s.ir →
      (outputs bits cw s).memAddr = (cycle dec s).mar
end

