-- ==== Sys2Proof/Tests/Slice0.lean ====
section
/-! SUPPORT. Tests. Expected values are the spec's own vectors (spec/95_test_vectors.md; the section
is named at each group) or are written out by hand from the rule named. -/

open Sys2Proof
open Sys2Proof.Machine

namespace Sys2Proof.Tests

/-- A running machine at an instruction boundary, `IR` 0. -/
def at_ (pc acc : Byte) (zf : Bool) (m : Memory) : State :=
  { State.resetWith m with pc := pc, acc := acc, zf := zf }

/-- The next state of an outcome. -/
def after : Host.Outcome State Fault Refusal → Option State
  | .next t => some t
  | .fault _ => none
  | .refused _ => none

/-- One step, observed. -/
def obs (f : State → Nat × Nat) (s : State) : Option (Nat × Nat) := (after (step s)).map f

/-- The two observations most tests make. -/
def pcAcc (s : State) : Nat × Nat := (s.pc.toNat, s.acc.toNat)
def zfBus (s : State) : Nat × Nat := (s.zf.toNat, s.bus.toNat)

/-! ## WellFormed: each check refuses an ill-formed term -/

theorem test_wf_image_address : ImageEntry.wf ⟨256, 0⟩ = false := by decide
theorem test_wf_image_value : ImageEntry.wf ⟨0, 256⟩ = false := by decide
theorem test_wf_image_ok : Image.wf [⟨255, 255⟩, ⟨0, 0⟩] = true := by decide
theorem test_wf_image_duplicate : Image.wf [⟨3, 1⟩, ⟨3, 1⟩] = false := by decide
theorem test_wf_keys_unique : ¬ DecoderTable.KeysUnique [⟨0, 7#8, 1#15⟩, ⟨0, 7#8, 2#15⟩] :=
  by decide
theorem test_wf_steps_below : ¬ DecoderTable.StepsBelow [⟨15, 0#8, 1#15⟩] 15 := by decide
theorem test_wf_step_reset_missing : endsWithStepReset [0x0005#15, 0x0002#15] = false := by decide
theorem test_wf_step_reset_early : endsWithStepReset [0x0100#15, 0x0100#15] = false := by decide
theorem test_wf_operand_missing : Stmt.wf (.op .LDI none) = false := by decide
theorem test_wf_operand_extra : Stmt.wf (.op .INC (some 0)) = false := by decide
theorem test_wf_operand_range : Stmt.wf (.op .JMP (some 256)) = false := by decide
theorem test_wf_db_range : Stmt.wf (.db 256) = false := by decide
theorem test_wf_instr_all_operands : Instr.wf (.jmp 0xFF#8) = true := by decide
theorem test_wf_memory_order : ¬ Memory.wf [(1, 1#8), (0, 1#8)] := by decide
theorem test_wf_memory_unset_byte : ¬ Memory.wf [(1, 0#8)] := by decide
theorem test_wf_memory_range : ¬ Memory.wf [(256, 1#8)] := by decide

/-! ## Decoding: words written out from R52 and R54 -/

theorem test_decode_ldi : decodeTableWord 16 0b00001111_00000000 = some (.ldi 15#8) := by decide
theorem test_decode_adi : decodeTableWord 16 0b11111111_00000001 = some (.adi 255#8) := by decide
theorem test_decode_inc : decodeTableWord 8 0b00000011 = some .inc := by decide
theorem test_decode_jmp : decodeTableWord 16 0b00001001_00000100 = some (.jmp 9#8) := by decide
theorem test_decode_jz : decodeTableWord 8 0b00000101 = some .jz := by decide
theorem test_decode_hlt : decodeTableWord 8 0b00000110 = some .hlt := by decide
theorem test_decode_short_ldi : decodeTableWord 8 0b00000000 = some (.ldi 0#8) := by decide
theorem test_decode_store_gap : decode [0x02#8, 0x00#8] = .error .reservedStore := by rfl
theorem test_decode_07 : decode [0x07#8] = .error (.undefinedOpcode 0x07#8) := by rfl
theorem test_decode_ff : decode [0xFF#8] = .error (.undefinedOpcode 0xFF#8) := by rfl
theorem test_decode_no_operand : decode [0x04#8] = .error (.noOperand 0x04#8) := by rfl
theorem test_decode_empty : decode [] = .error .noOpcode := by rfl
theorem test_encode_jmp : encode (.jmp 9#8) = [0x04#8, 0x09#8] := by decide

/-! ## The six instructions (spec/95_test_vectors.md section 3) -/

theorem test_ldi_wraps : obs pcAcc (at_ 0xFF 0 false [(0, 0x77#8)]) = some (0x01, 0x77) := by
  decide
theorem test_ldi_keeps_zf : obs zfBus (at_ 0 0 true [(1, 7#8)]) = some (1, 7) := by decide
theorem test_adi_wraps : obs pcAcc (at_ 0 0xFF false [(0, 1#8), (1, 1#8)]) = some (2, 0) := by
  decide
theorem test_adi_sets_zf : obs zfBus (at_ 0 1 false [(0, 1#8), (1, 0xFF#8)]) = some (1, 0xFF) := by
  decide
theorem test_inc_wraps : obs pcAcc (at_ 0 0xFF false [(0, 3#8)]) = some (1, 0) := by decide
theorem test_inc_keeps_zf : obs zfBus (at_ 0 0xFF false [(0, 3#8)]) = some (0, 3) := by decide
theorem test_jmp_target : obs pcAcc (at_ 5 0x11 false [(5, 4#8), (6, 9#8)]) = some (9, 0x11) := by
  decide
theorem test_jmp_wraps : obs zfBus (at_ 0xFF 0 false [(0, 0x80#8), (255, 4#8)]) =
    some (0, 0x80) := by
  decide
theorem test_jz_not_taken : obs pcAcc (at_ 0xFE 0x55 false [(254, 5#8)]) = some (0xFF, 0xFF) := by
  decide
theorem test_jz_taken : obs pcAcc (at_ 0xFE 0x55 true [(254, 5#8)]) = some (0, 0) := by decide
theorem test_hlt_halts : (after (step (at_ 0xFF 0xAB false [(255, 6#8)]))).map State.halted =
    some true := by
  decide
theorem test_hlt_keeps_acc : obs pcAcc (at_ 0xFF 0xAB false [(255, 6#8)]) = some (0, 0xAB) := by
  decide
theorem test_undefined_idles : (cycles refDecoder 5 (at_ 2 7 true [(2, 0xFF#8)])).stepCtr = 5 := by
  decide

/-! ## Control words (section 2.3): the word with all fifteen lines, and a wrap -/

/-- The base state of section 2. -/
def base : State :=
  { pc := 0x10, stepCtr := 3, bus := 0x30, mar := 0x20, ir := 0x07, acc := 0x40, zf := false,
    halted := false, mem := [(16, 0xBB#8), (32, 0xAA#8), (48, 0xCC#8)] }

theorem test_all_lines : applyWord 0x7FFF#15 base.mem.read base =
    { base with stepCtr := 0, mar := 0x10, ir := 0x76, bus := 0x01, acc := 0x77, zf := true,
                halted := true } := by
  decide
theorem test_accl_acca :
    (applyWord 0x0030#15 base.mem.read { base with bus := 0x80 }).zf = true := by
  decide

/-! ## Fetch placement, reset, loader, assembler, run -/

theorem test_withFetchWord : (State.reset.withFetchWord 16 0x0904).mem = [(0, 4#8), (1, 9#8)] := by
  decide
theorem test_withFetchWord_step :
    obs pcAcc (State.reset.withFetchWord 16 0x0904) = some (9, 0) := by
  decide
theorem test_withFetchWord_anywhere :
    fetched (({ base with halted := true } : State).withFetchWord 8 0x05) = some .jz := by
  decide
theorem test_reset_mem_wf : State.reset.mem.wf := by decide
theorem test_write_unset_removes : Memory.write [(3, 1#8)] 3#8 0#8 = [] := by decide
theorem test_write_sorts : Memory.write [(3, 1#8)] 2#8 9#8 = [(2, 9#8), (3, 1#8)] := by decide
theorem test_load_refuses : loadImage [⟨256, 0⟩] = none := by decide
theorem test_parse_line : parseLine ['J', 'M', 'P', ' ', '0', 'x', '1', 'F'] =
    some (.op .JMP (some 31)) := by
  decide
theorem test_parse_directive : parseLine ['G', 'A', 'P', ' ', '2'] = some (.gap 2) := by decide
theorem test_parse_refuses : parseLine ['S', 'T', 'A'] = none := by decide
/-- Part of spec/95_test_vectors.md S5: `JMP 9; GAP 2; LDI 0` from address 5. -/
theorem test_assemble : assemble [.org 5, .op .JMP (some 9), .gap 2, .op .LDI (some 0)] =
    some [⟨5, 4⟩, ⟨6, 9⟩, ⟨9, 0⟩, ⟨10, 0⟩] := by
  decide
theorem test_micro_step : after ((microCore refDecoder).step State.reset) =
    some { State.reset with stepCtr := 1 } := by
  decide
theorem test_rom_word : ofRomWord 0x8005#16 = 0x0005#15 := by decide
theorem test_rom_addr : romAddr 4 { base with stepCtr := 99 } = 0xF07#12 := by decide

/-! ## Witnesses: for each obligation with hypotheses, concrete terms that meet them -/

/-- A boundary of a running machine, with these two bytes at `PC`. -/
abbrev ReadsAt (s : State) (b0 b1 : Byte) : Prop :=
  s.halted = false ∧ atBoundary s = true ∧ s.mem.read s.pc = b0 ∧ s.mem.read (s.pc + 1#8) = b1

theorem witness_LdiLoadsItsOperand :
    ReadsAt (at_ 0xFF 0 false [(0, 0xFF#8)]) 0x00#8 0xFF#8 ∧ ReadsAt State.reset 0#8 0#8 := by
  decide

theorem witness_AdiAddsItsOperand :
    ReadsAt (at_ 0xFF 0xFF false [(0, 1#8), (255, 1#8)]) 0x01#8 0x01#8 := by
  decide

theorem witness_IncIncrementsAndKeepsZf :
    ReadsAt (at_ 0xFF 0xFF false [(255, 3#8)]) 0x03#8 0#8 := by
  decide

theorem witness_JmpSetsPcToItsOperand :
    ReadsAt (at_ 0xFF 0 true [(0, 0xFF#8), (255, 4#8)]) 0x04#8 0xFF#8 := by
  decide

theorem witness_JzSkipsOneByteIffZf :
    ReadsAt (at_ 0xFE 1 true [(254, 5#8)]) 0x05#8 0#8 ∧
      ReadsAt (at_ 0xFE 0 false [(254, 5#8)]) 0x05#8 0#8 := by
  decide

theorem witness_HltHaltsForGood : ReadsAt (at_ 0xFF 0 false [(255, 6#8)]) 0x06#8 0#8 := by
  decide

theorem witness_UndefinedOpcodeHangsForEver :
    ReadsAt (at_ 0 7 false [(0, 2#8)]) 0x02#8 0#8 ∧ ReadsAt (at_ 0 7 false [(0, 7#8)]) 0x07#8 0#8 ∧
      7 ≤ (0x07#8).toNat ∧ ReadsAt (at_ 0 7 false [(0, 255#8)]) 0xFF#8 0#8 ∧
      7 ≤ (0xFF#8).toNat := by
  decide

theorem witness_InstructionsChangeOnlyTheirTargets :
    State.reset.halted = false ∧ (∃ t, exec .hlt State.reset = .next t) ∧
      (∃ t, exec (.jmp 255#8) State.reset = .next t) ∧
      (at_ 0 0 true []).zf = true ∧ ∃ t, exec .inc (at_ 0 0 true []) = .next t :=
  ⟨rfl, ⟨_, rfl⟩, ⟨_, rfl⟩, rfl, ⟨_, rfl⟩⟩

/-- A halted machine. -/
def halted : State := { base with halted := true }

theorem witness_HaltedMachineExecutesNothing : halted.halted = true := by decide

theorem witness_StepRunsTheDecodedInstruction :
    (atBoundary State.reset = true ∧
      decode [State.reset.mem.read 0#8, State.reset.mem.read 1#8] = .ok (.ldi 0#8, [])) ∧
    halted.halted = true ∧
    (base.halted = false ∧ atBoundary base = false) ∧
    (at_ 0 0 false [(0, 2#8)]).halted = false ∧
      decode [(at_ 0 0 false [(0, 2#8)]).mem.read 0#8, 0#8] = .error .reservedStore :=
  ⟨⟨by decide, rfl⟩, rfl, ⟨rfl, by decide⟩, rfl, rfl⟩

/-- The four clauses of the invariant about states after steps 0, 1 and 2 and after a halt, each
met with its premise true. -/
theorem witness_EveryCycleKeepsTheMachineInvariant :
    MachineInv State.reset ∧ MachineInv (cycles refDecoder 1 State.reset) ∧
      MachineInv (cycles refDecoder 2 (at_ 2 7 false [(2, 2#8)])) ∧
      MachineInv (cycles refDecoder 3 (at_ 255 7 false [(255, 5#8)])) ∧
      MachineInv (cycles refDecoder 4 (at_ 255 7 false [(255, 6#8)])) := by
  refine ⟨?_, ?_, ?_, ?_, ?_⟩ <;>
    exact ⟨by decide, by decide, by decide, by decide, by decide, by decide, by decide⟩

theorem witness_EveryStepKeepsTheMachineInvariant :
    MachineInv State.reset ∧ ∃ t, step State.reset = .next t :=
  ⟨witness_EveryCycleKeepsTheMachineInvariant.1, ⟨_, rfl⟩⟩

theorem witness_ResetMeetsTheMachineInvariant : Memory.wf [(0, 6#8), (255, 1#8)] := by decide

theorem witness_FetchPrefixNeedsADefinedOpcode :
    (State.reset.stepCtr = 0 ∧ State.reset.halted = false ∧
      defines refDecoder State.reset.ir = true) ∧
    ({ State.reset with ir := 0x07 } : State).stepCtr = 0 ∧
      defines refDecoder ({ State.reset with ir := 0x07 } : State).ir = false := by
  decide

theorem witness_LeftoverBusMarIrDoNotMatter :
    atBoundary State.reset = true ∧ defines refDecoder 0x06#8 = true := by
  decide

/-- `base` with `BUS` 0. -/
def base0 : State := { base with bus := 0 }

theorem witness_ZfIsSetByZeroAndClearedByZfcOnly :
    has 0x2000#15 .zfs = true ∧
    (has 0x1000#15 .zfs = false ∧ has 0x1000#15 .zfc = true) ∧
    ((at_ 0 0 true []).zf = true ∧ has 0x0010#15 .zfc = false) ∧
    (has 0#15 .zfs = false ∧ has 0#15 .zfc = false ∧ has 0#15 .accl = false ∧
      has 0#15 .acca = false) ∧
    (has 0x0010#15 .zfs = false ∧ has 0x0010#15 .zfc = false ∧ has 0x0010#15 .accinc = false ∧
      has 0x0010#15 .accl = true ∧ (applyWord 0x0010#15 base0.mem.read base0).acc = 0#8 ∧
      base0.zf = false ∧ (applyWord 0x0010#15 base0.mem.read base0).zf = true) := by
  decide

/-- A load of a non-zero value leaves a set and a clear flag as they are (R70, its example). -/
theorem test_accl_nonzero_keeps_zf :
    (applyWord 0x0010#15 base.mem.read base).zf = false ∧
      (applyWord 0x0010#15 base.mem.read { base with zf := true }).zf = true := by
  decide

theorem witness_CombinedLinesActInTheFixedOrder : base0.bus = 0#8 := by decide

theorem witness_MissingKeyIsANoOp :
    (∀ e ∈ refDecoder, ¬(e.step = base.stepCtr ∧ e.opcode = base.ir)) ∧ base.halted = false ∧
      (∀ e ∈ refDecoder, ¬(e.step = (0x805#12).toNat / 256 ∧
        e.opcode.toNat = (0x805#12).toNat % 256)) ∧
      refDecoder.KeysUnique ∧ (⟨7, 0x05#8, 0x0900#15⟩ : DecoderEntry) ∈ refDecoder := by
  decide

theorem witness_RefDecoderHasTheListedEntries :
    (∀ e ∈ refDecoder, ¬(e.step = 8 ∧ e.opcode = 0x05#8)) ∧
      ∀ e ∈ refDecoder, ¬(e.step = 4 ∧ e.opcode = 0x03#8) := by
  decide

theorem witness_MicroprogramsEndWithStepReset :
    7 + 1 = (microprogramOf .jz).length ∧ 6 + 1 < (microprogramOf .jz).length ∧
      ∀ i : Instr, (encode i).headD 0#8 ≠ 0x02#8 := by
  refine ⟨by decide, by decide, fun i => ?_⟩
  cases i <;> simp [encode, opLdi, opAdi, opInc, opJmp, opJz, opHlt]

theorem witness_UndefinedOpcodesHaveNoEntries :
    defines refDecoder base.ir = false ∧ base.halted = false := by
  decide

theorem witness_SubsetDecoderLacksJmpAndJz :
    (0x03#8 ≠ 0x04#8 ∧ 0x06#8 ≠ 0x05#8) ∧ State.reset.ir ≠ 0x04#8 ∧ State.reset.ir ≠ 0x05#8 := by
  decide

theorem witness_TableWithoutOpcodeZeroNeverFetches :
    defines (entriesOf opInc microInc) 0x00#8 = false := by
  decide

theorem witness_RunningPastAMicroprogramIdles :
    ({ base with ir := 0x03, stepCtr := 4 } : State).halted = false ∧
      ∀ e ∈ refDecoder, e.opcode = 0x03#8 → e.step < 4 := by
  decide

theorem witness_DecodeIsTheInverseOfEncode : (Instr.ldi 255#8).wf = true := by decide

theorem witness_ZfStaysSetUntilReset :
    (at_ 0 0 true []).zf = true ∧ ∃ t, step (at_ 0 0 true []) = .next t :=
  ⟨rfl, ⟨_, rfl⟩⟩

/-- Two `JZ` in a row, the first not taken, the second one byte on. -/
theorem witness_EveryJzAfterTheFirstSkips :
    let s := at_ 0xFE 0 false [(254, 5#8), (255, 5#8)]
    let u := cycles refDecoder (8 + 0) s
    atBoundary s = true ∧ s.mem.read s.pc = 0x05#8 ∧ atBoundary u = true ∧
      u.mem.read u.pc = 0x05#8 := by
  decide

theorem witness_HaltedStateIsFinal : halted.halted = true := by decide

theorem witness_MachineNeverWritesMemory :
    (∃ t, exec (.adi 1#8) halted = .next t) ∧ ∃ t, step base = .next t :=
  ⟨⟨_, rfl⟩, ⟨_, rfl⟩⟩

theorem witness_LoaderInitialisesEveryCell :
    loadImage [⟨255, 255⟩, ⟨0, 0⟩] = some [(255, 255#8)] ∧
      (∃ e ∈ ([⟨0, 1⟩, ⟨256, 0⟩] : Image), 256 ≤ e.addr ∨ 256 ≤ e.value) ∧
      (∃ e ∈ ([⟨0, 256⟩] : Image), 256 ≤ e.addr ∨ 256 ≤ e.value) ∧
      (∀ e ∈ ([⟨255, 255⟩, ⟨0, 0⟩] : Image), e.addr < 256 ∧ e.value < 256) ∧
      ([⟨255, 255⟩, ⟨0, 0⟩] : Image).Pairwise (fun a b => a.addr ≠ b.addr) := by
  decide

theorem witness_UnsetMemoryRunsAsLdiZero :
    let s := at_ 0xFF 9 false [(1, 3#8)]
    atBoundary s = true ∧ (∀ c ∈ s.mem, c.1 ≠ s.pc.toNat) ∧
      ∀ c ∈ s.mem, c.1 ≠ (s.pc + 1#8).toNat := by
  decide

theorem witness_ResetRestartsTheSameRun : halted.halted = true := by decide

theorem witness_BlockWithItsPortsWiredIsTheCycle :
    lookup refDecoder State.reset.stepCtr State.reset.ir = 0x0005#15 ∧
      (outputs 4 0x0005#15 State.reset).memRe = false := by
  decide

theorem witness_MemAddrIsTheNextMar :
    halted.halted = true ∧ lookup refDecoder State.reset.stepCtr State.reset.ir = 0x0005#15 := by
  decide

/-- After `HLT` the key is (0, 0x06), whose word asserts `PCO+MARI`; `mem_addr` stays `MAR`, also
where `PC` and `BUS` differ from it (R82). -/
theorem test_mem_addr_halted :
    memAddr (lookup refDecoder 0 0x06#8) halted = 0x20#8 ∧
      memAddr (lookup refDecoder 0 0x06#8) base = 0x10#8 := by
  decide

theorem witness_RomAtItsAddressHoldsTheTablesWord :
    refDecoder.StepsBelow (2 ^ 4 - 1) ∧
      DecoderTable.StepsBelow [⟨14, 0#8, 1#15⟩] (2 ^ 4 - 1) := by
  decide

theorem witness_SaturatingCounterIsInvisible :
    refDecoder.StepsBelow (2 ^ 4 - 1) ∧ DecoderTable.StepsBelow [] (2 ^ 0 - 1) ∧ 4 ≤ 4 := by
  decide

theorem witness_RunHaltsOrUsesUpItsBudget :
    boot [⟨0, 6⟩] = some (State.resetWith [(0, 6#8)]) ∧
      (run [⟨0, 6⟩] refDecoder 4).map RunResult.outcome = some .halted ∧
      (run [⟨0, 6⟩] refDecoder 3).map RunResult.outcome = some .outOfBudget := by
  decide

theorem witness_RunCountsTheHaltingCycle :
    boot [⟨0, 6⟩] = some (State.resetWith [(0, 6#8)]) ∧
      (cycles refDecoder 3 (State.resetWith [(0, 6#8)])).halted = false ∧
      (cycles refDecoder (3 + 1) (State.resetWith [(0, 6#8)])).halted = true ∧ 3 + 1 ≤ 4 := by
  decide

theorem witness_TraceRecordsEveryCycle :
    3 < 4 ∧ (cycles refDecoder 3 (State.resetWith [(0, 6#8)])).halted = false := by
  decide

theorem witness_AssembledProgramLoadsItsBytes :
    ((List.replicate 128 (Instr.ldi 255#8)).flatMap encode).length ≤ 256 ∧
      ([Instr.inc, .jz, .hlt].flatMap encode).length ≤ 256 :=
  ⟨by decide +kernel, by decide⟩

end Sys2Proof.Tests
end

section
/-! SUPPORT. Proofs of the statements about the state: its values after reset, edges with `rst`, and
the trace. The rules about each operation come first, then the three statements. -/

namespace Sys2Proof.Machine

/-! ## Reset -/

/-- Nothing is listed in the empty image, so every cell reads as an unset one (R34). -/
@[simp] theorem Memory.read_nil (a : Addr) : Memory.read [] a = 0x00#8 := rfl

/-- Reset is a function of memory alone: the registers it finds are forgotten (R26). -/
theorem State.resetRegisters_eq_resetWith (s : State) :
    s.resetRegisters = State.resetWith s.mem := rfl

theorem State.resetWith_eq_reset_with_mem (m : Memory) :
    State.resetWith m = { State.reset with mem := m } := rfl

/-- The first key after reset is `(0, 0x00)`, and 0x00 is a defined opcode, so the first cycle
fetches (R131). -/
@[simp] theorem atBoundary_resetWith (m : Memory) : atBoundary (State.resetWith m) = true :=
  (atBoundary_iff _).mpr ⟨rfl, rfl, (defines_refDecoder_iff _).mpr (.inl rfl)⟩

/-! ## Clock edges -/

@[simp] theorem clockEdge_true (dec : DecoderTable) (s : State) :
    clockEdge dec true s = State.resetWith s.mem := rfl

@[simp] theorem clockEdge_false (dec : DecoderTable) (s : State) :
    clockEdge dec false s = cycle dec s := rfl

@[simp] theorem clockEdges_nil (dec : DecoderTable) (s : State) : clockEdges dec [] s = s := rfl

@[simp] theorem clockEdges_cons (dec : DecoderTable) (r : Bool) (rs : List Bool) (s : State) :
    clockEdges dec (r :: rs) s = clockEdges dec rs (clockEdge dec r s) := rfl

/-- Neither a cycle nor a reset writes memory (R36, R132). -/
@[simp] theorem clockEdge_mem (dec : DecoderTable) (r : Bool) (s : State) :
    (clockEdge dec r s).mem = s.mem := by
  cases r with
  | true => rfl
  | false => exact cycle_mem dec s

@[simp] theorem clockEdges_mem (dec : DecoderTable) (rs : List Bool) (s : State) :
    (clockEdges dec rs s).mem = s.mem := by
  induction rs generalizing s with
  | nil => rfl
  | cons r rs ih => rw [clockEdges_cons, ih, clockEdge_mem]

theorem clockEdges_append (dec : DecoderTable) (rs qs : List Bool) (s : State) :
    clockEdges dec (rs ++ qs) s = clockEdges dec qs (clockEdges dec rs s) := by
  induction rs generalizing s with
  | nil => rfl
  | cons r rs ih => exact ih (clockEdge dec r s)

/-! ## Cycles and the trace -/

@[simp] theorem cycles_zero (dec : DecoderTable) (s : State) : cycles dec 0 s = s := rfl

theorem cycles_succ (dec : DecoderTable) (n : Nat) (s : State) :
    cycles dec (n + 1) s = cycles dec n (cycle dec s) := rfl

/-- A halted machine stays as it is over any number of edges (R80). -/
theorem cycles_halted (dec : DecoderTable) (n : Nat) (s : State) (h : s.halted = true) :
    cycles dec n s = s := by
  induction n with
  | zero => rfl
  | succ n ih => rw [cycles_succ, cycle_halted dec s h, ih]

/-- A machine that runs after some cycles was running before them. -/
theorem running_of_cycles_running (dec : DecoderTable) (n : Nat) (s : State)
    (h : (cycles dec n s).halted = false) : s.halted = false := by
  cases hs : s.halted with
  | false => rfl
  | true => rw [← hs, ← h, cycles_halted dec n s hs]

theorem trace_succ_running (dec : DecoderTable) (n : Nat) (s : State) (h : s.halted = false) :
    trace dec (n + 1) s = recordOf dec s :: trace dec n (cycle dec s) := by
  simp [trace, h]

/-- Record `k` of a trace is the record of the cycle that starts in the state after `k` cycles
(R31). -/
theorem trace_getElem? (dec : DecoderTable) (n k : Nat) (s : State) (hk : k < n)
    (hrun : (cycles dec k s).halted = false) :
    (trace dec n s)[k]? = some (recordOf dec (cycles dec k s)) := by
  induction k generalizing n s with
  | zero =>
    obtain ⟨n, rfl⟩ := Nat.exists_eq_succ_of_ne_zero hk.ne'
    rw [trace_succ_running dec n s hrun, List.getElem?_cons_zero, cycles_zero]
  | succ k ih =>
    obtain ⟨n, rfl⟩ := Nat.exists_eq_succ_of_ne_zero (Nat.ne_zero_of_lt hk)
    have hs : s.halted = false := running_of_cycles_running dec (k + 1) s hrun
    rw [trace_succ_running dec n s hs, List.getElem?_cons_succ]
    exact ih n (cycle dec s) (by omega) hrun

/-! ## The statements -/

/-- Settles O45: memory is all that a reset keeps, and no edge before it changed memory. -/
theorem resetRestartsTheSameRun : Obligations.ResetRestartsTheSameRun := by
  unfold Obligations.ResetRestartsTheSameRun
  intro dec before after s
  refine ⟨clockEdge_true dec s, fun hs => ?_, ?_⟩
  · rw [clockEdge_false, cycle_halted dec s hs]
  · calc clockEdges dec (before ++ true :: after) s
        = clockEdges dec after (State.resetWith (clockEdges dec before s).mem) := by
          rw [clockEdges_append, clockEdges_cons, clockEdge_true]
      _ = clockEdges dec after (State.resetWith s.mem) := by rw [clockEdges_mem]

/-- Settles O51: the state after cycle `k + 1` is one cycle on from the state its record starts
in. -/
theorem traceRecordsEveryCycle : Obligations.TraceRecordsEveryCycle := by
  unfold Obligations.TraceRecordsEveryCycle
  rintro dec n k s before after hk rfl rfl hrun
  rw [trace_getElem? dec n k s hk hrun, cycles_succ_last]
  rfl

/-- Settles O44: reset writes every register, and memory, which it leaves, reads 0 where nothing is
loaded. -/
theorem resetZeroesEveryRegister : Obligations.ResetZeroesEveryRegister := by
  unfold Obligations.ResetZeroesEveryRegister
  refine ⟨rfl, rfl, rfl, rfl, rfl, rfl, rfl, rfl, atBoundary_resetWith [], fun s a => ⟨?_, ?_, ?_⟩⟩
  · rw [State.resetRegisters_eq_resetWith, State.resetWith_eq_reset_with_mem]
  · rw [State.resetRegisters_mem]
  · exact Memory.read_nil a

end Sys2Proof.Machine
end

section
/-! SUPPORT. Proofs of the statements about memory. An instruction is a run of its micro-program and
a step is nothing, such a run, or one cycle; the frame of memory follows from that of one control
word. -/

namespace Sys2Proof.Machine

/-! ## What an instruction and a step can do -/

/-- Every instruction is the run of its own micro-program, with its own bytes on the port (R4). -/
theorem exec_eq_next_runMicroprogram (i : Instr) (s : State) :
    exec i s = .next (runMicroprogram (encode i) (microprogramOf i) s) := by
  cases i <;> rfl

theorem step_halted (s : State) (h : s.halted = true) : step s = .next s := by
  simp [step, h]

theorem step_of_fetched_some (s : State) (i : Instr) (h : s.halted = false)
    (hf : fetched s = some i) : step s = exec i s := by
  simp [step, h, hf]

theorem step_of_fetched_none (s : State) (h : s.halted = false) (hf : fetched s = none) :
    step s = .next (cycle refDecoder s) := by
  simp [step, h, hf]

/-- Everything a step can do: stay halted (R80), run the fetched instruction whole (R102), or
process one cycle (R62). -/
theorem step_eq_next_cases (s t : State) (h : step s = .next t) :
    (s.halted = true ∧ t = s) ∨
    (s.halted = false ∧ ∃ i, fetched s = some i ∧
      t = runMicroprogram (encode i) (microprogramOf i) s) ∨
    (s.halted = false ∧ fetched s = none ∧ t = cycle refDecoder s) := by
  cases hs : s.halted with
  | true =>
    rw [step_halted s hs] at h
    cases h
    exact .inl ⟨rfl, rfl⟩
  | false =>
    cases hf : fetched s with
    | some i =>
      rw [step_of_fetched_some s i hs hf, exec_eq_next_runMicroprogram] at h
      cases h
      exact .inr (.inl ⟨rfl, i, rfl, rfl⟩)
    | none =>
      rw [step_of_fetched_none s hs hf] at h
      cases h
      exact .inr (.inr ⟨rfl, rfl, rfl⟩)

/-! ## Memory is left as it was (R36) -/

@[simp] theorem cycles_mem (dec : DecoderTable) (n : Nat) (s : State) :
    (cycles dec n s).mem = s.mem := by
  induction n generalizing s with
  | zero => rfl
  | succ n ih => rw [cycles_succ, ih, cycle_mem]

@[simp] theorem runMicroprogram_mem (bytes : List Byte) (prog : List ControlWord) (s : State) :
    (runMicroprogram bytes prog s).mem = s.mem := applyWords_mem _ prog s

theorem exec_keeps_mem (i : Instr) (s t : State) (h : exec i s = .next t) : t.mem = s.mem := by
  rw [exec_eq_next_runMicroprogram] at h
  cases h
  exact runMicroprogram_mem _ _ s

theorem step_keeps_mem (s t : State) (h : step s = .next t) : t.mem = s.mem := by
  obtain ⟨-, rfl⟩ | ⟨-, i, -, rfl⟩ | ⟨-, -, rfl⟩ := step_eq_next_cases s t h
  · rfl
  · exact runMicroprogram_mem _ _ s
  · exact cycle_mem refDecoder s

/-- Settles O41: no control word writes memory, and cycles, edges, instructions and steps are made
of control words and resets. -/
theorem machineNeverWritesMemory : Obligations.MachineNeverWritesMemory := by
  unfold Obligations.MachineNeverWritesMemory
  exact ⟨cycles_mem, clockEdges_mem, exec_keeps_mem, step_keeps_mem⟩

end Sys2Proof.Machine
end

section
/-! SUPPORT. Proofs of the statements about opcodes without entries: what it takes for a machine to
idle, which opcodes `REF_DECODER` leaves undefined, and what removing entries from a table does to
its lookups. -/

namespace Sys2Proof.Machine

/-! ## Idling -/

/-- A cycle under a key without an entry does nothing but advance the step counter (R81). -/
theorem cycle_of_lookup_empty (dec : DecoderTable) (s : State) (h : s.halted = false)
    (hw : lookup dec s.stepCtr s.ir = emptyWord) :
    cycle dec s = { s with stepCtr := s.stepCtr + 1 } := by
  rw [cycle_running dec s h, hw, applyWord_empty]

/-- The machine idles as soon as no later step has a word: the empty word leaves `IR` alone, so the
next lookup is in the same column of the table. -/
theorem idlesForEver_of_lookup_empty (dec : DecoderTable) (s : State) (h : s.halted = false)
    (hw : ∀ k, s.stepCtr ≤ k → lookup dec k s.ir = emptyWord) : IdlesForEver dec s := by
  intro n
  induction n with
  | zero => rfl
  | succ n ih =>
    rw [cycles_succ_last, ih]
    exact cycle_of_lookup_empty dec { s with stepCtr := s.stepCtr + n } h
      (hw _ (Nat.le_add_right _ _))

/-- Idling leaves `HALTED` as it is. -/
theorem not_halts_of_idlesForEver (dec : DecoderTable) (s : State) (h : s.halted = false)
    (hi : IdlesForEver dec s) : ¬ Halts dec s := by
  rintro ⟨n, hn⟩
  rw [hi n] at hn
  exact Bool.false_ne_true (h.symm.trans hn)

/-! ## The undefined opcodes of `REF_DECODER` -/

theorem defines_refDecoder_eq_false_iff (op : Byte) :
    defines refDecoder op = false ↔ op = 0x02#8 ∨ 7 ≤ op.toNat := by
  rw [← Bool.not_eq_true, defines_refDecoder_iff]
  simp only [opLdi, opAdi, opInc, opJmp, opJz, opHlt, ← BitVec.toNat_inj, BitVec.reduceToNat]
  omega

theorem not_defines_refDecoder_ofNat (n : Nat) (hn : n < 256) :
    (!defines refDecoder (BitVec.ofNat 8 n)) = decide (n = 2 ∨ 7 ≤ n) := by
  rw [Bool.eq_iff_iff, Bool.not_eq_true', decide_eq_true_iff, defines_refDecoder_eq_false_iff,
    ← BitVec.toNat_inj, BitVec.toNat_ofNat, Nat.mod_eq_of_lt hn]
  rfl

/-- Among the first seven opcode values only 0x02 is undefined, from there on every one (R56). -/
theorem length_filter_undefined (m : Nat) :
    ((List.range (7 + m)).filter (fun n => decide (n = 2 ∨ 7 ≤ n))).length = 1 + m := by
  induction m with
  | zero => rfl
  | succ m ih =>
    rw [← Nat.add_assoc, List.range_succ, List.filter_append, List.length_append, ih,
      List.filter_singleton, decide_eq_true (.inr (Nat.le_add_right 7 m))]
    rfl

/-- Settles O29: an undefined opcode has no word at any step, and a column of empty words idles. -/
theorem undefinedOpcodesHaveNoEntries : Obligations.UndefinedOpcodesHaveNoEntries := by
  unfold Obligations.UndefinedOpcodesHaveNoEntries
  refine ⟨defines_refDecoder_eq_false_iff, ?_, fun s hop hrun => ?_⟩
  · rw [List.filter_congr fun n hn => not_defines_refDecoder_ofNat n (List.mem_range.mp hn)]
    exact length_filter_undefined 249
  · have hempty : ∀ k, lookup refDecoder k s.ir = emptyWord :=
      fun k => lookup_undefined refDecoder k s.ir hop
    have hidle : IdlesForEver refDecoder s :=
      idlesForEver_of_lookup_empty refDecoder s hrun fun k _ => hempty k
    exact ⟨hempty, hidle, not_halts_of_idlesForEver refDecoder s hrun hidle⟩

/-! ## Tables with entries removed -/

/-- Removing entries of other opcodes does not change a lookup. -/
theorem lookup_filter (p : DecoderEntry → Bool) (t : DecoderTable) (k : Nat) (op : Byte)
    (h : ∀ e : DecoderEntry, e.opcode = op → p e = true) :
    lookup (t.filter p) k op = lookup t k op := by
  induction t with
  | nil => rfl
  | cons e rest ih =>
    by_cases hp : p e = true
    · simp only [List.filter_cons_of_pos hp, lookup, ih]
    · have hop : e.opcode ≠ op := fun heq => hp (h e heq)
      simp only [List.filter_cons_of_neg hp, lookup, hop, and_false, if_false, ih]

/-- Removing every entry of an opcode makes it undefined. -/
theorem defines_filter_eq_false (p : DecoderEntry → Bool) (t : DecoderTable) (op : Byte)
    (h : ∀ e : DecoderEntry, e.opcode = op → p e = false) : defines (t.filter p) op = false := by
  simp only [defines, List.any_eq_false, List.mem_filter, decide_eq_true_eq]
  rintro e ⟨-, hp⟩ heq
  exact Bool.false_ne_true ((h e heq).symm.trans hp)

/-- `SUBSET_DECODER` is the blocks of the four opcodes that stay (R59). -/
theorem subsetDecoder_blocks : subsetDecoder =
    entriesOf opLdi microLdi ++ entriesOf opAdi microAdi ++ entriesOf opInc microInc ++
      entriesOf opHlt microHlt := by
  decide

theorem lookup_subsetDecoder_jmp (k : Nat) : lookup subsetDecoder k opJmp = emptyWord :=
  lookup_undefined _ k _ (defines_filter_eq_false _ _ _ fun e he => by simp [he])

theorem lookup_subsetDecoder_jz (k : Nat) : lookup subsetDecoder k opJz = emptyWord :=
  lookup_undefined _ k _ (defines_filter_eq_false _ _ _ fun e he => by simp [he])

/-- Under every opcode but `JMP` and `JZ` the two tables answer alike (R101). -/
theorem lookup_subsetDecoder_other (k : Nat) (op : Byte) (hjmp : op ≠ opJmp) (hjz : op ≠ opJz) :
    lookup subsetDecoder k op = lookup refDecoder k op :=
  lookup_filter _ _ k op fun e he => by simp [he, hjmp, hjz]

/-- A cycle depends on its table only through the word at its own key. -/
theorem cycle_congr_lookup (t u : DecoderTable) (s : State)
    (h : lookup t s.stepCtr s.ir = lookup u s.stepCtr s.ir) : cycle t s = cycle u s := by
  unfold cycle cycleOn
  rw [h]

/-- Settles O30: what is removed is every entry of `JMP` and `JZ` and no other, and only those
two micro-programs use the four lines. -/
theorem subsetDecoderLacksJmpAndJz : Obligations.SubsetDecoderLacksJmpAndJz := by
  unfold Obligations.SubsetDecoderLacksJmpAndJz
  refine ⟨?_, fun k => ⟨lookup_subsetDecoder_jmp k, lookup_subsetDecoder_jz k⟩,
    lookup_subsetDecoder_other, fun s hjmp hjz => ?_, ?_⟩
  · rw [subsetDecoder_blocks]
    rfl
  · exact cycle_congr_lookup _ _ s (lookup_subsetDecoder_other s.stepCtr s.ir hjmp hjz)
  · rw [subsetDecoder_blocks]
    decide

end Sys2Proof.Machine
end

section
/-! SUPPORT. Proofs of the statements about the control lines: what a word asserts, one word as a
function of its set of lines, and the halting cycle. -/

namespace Sys2Proof.Machine

/-! ## Words and their lines -/

theorem lineBit_lt (l : ControlLine) : lineBit l < 15 := by
  cases l <;> decide

/-- A line's bit is its position in the table of lines (R48). -/
theorem allLines_getElem?_lineBit (l : ControlLine) : allLines[lineBit l]? = some l := by
  cases l <;> rfl

/-- Distinct lines have distinct bits (R48). -/
theorem lineBit_inj {l m : ControlLine} : lineBit l = lineBit m ↔ l = m := by
  refine ⟨fun h => Option.some.inj ?_, congrArg lineBit⟩
  rw [← allLines_getElem?_lineBit l, h, allLines_getElem?_lineBit m]

/-- The mask of a line asserts that line and no other. -/
@[simp] theorem has_lineMask (l m : ControlLine) : has (lineMask l) m = decide (m = l) := by
  rw [has, lineMask, ← BitVec.twoPow_eq, BitVec.getLsbD_twoPow]
  simp [lineBit_lt, lineBit_inj, eq_comm]

/-- Combining two words asserts the lines of either. -/
@[simp] theorem has_or (v w : ControlWord) (l : ControlLine) :
    has (v ||| w) l = (has v l || has w l) :=
  BitVec.getLsbD_or

/-- Adding a line to a word leaves every other line as it was. -/
theorem has_or_lineMask_other (cw : ControlWord) (l m : ControlLine) (h : m ≠ l) :
    has (cw ||| lineMask l) m = has cw m := by
  simp [h]

/-! ## One word as the chain of values of R82 -/

/-- A line that writes a result to the accumulator sets `ZF` exactly if the accumulator after it is
0 (R70, R71). -/
theorem zfAfterResult_of_line (c z : Bool) (result acc : Byte) :
    (if c then zfAfterResult z result else z) =
      if c && decide ((if c then result else acc) = 0#8) then true else z := by
  cases c with
  | false => rfl
  | true => simp [zfAfterResult]

/-- `ACCL` with the new `ZF` read off the accumulator after it, as `z1` of R82 is. -/
theorem effAccl_eq_of_acc_after (cw : ControlWord) (s : State) :
    effAccl cw s =
      let acc := if has cw .accl then s.bus else s.acc
      { s with acc, zf := if has cw .accl && decide (acc = 0#8) then true else s.zf } := by
  rw [effAccl_eq, zfAfterResult_of_line _ _ _ s.acc]

/-- `ACCA` with the new `ZF` read off the accumulator after it, as `z2` of R82 is. -/
theorem effAcca_eq_of_acc_after (cw : ControlWord) (s : State) :
    effAcca cw s =
      let acc := if has cw .acca then s.acc + s.bus else s.acc
      { s with acc, zf := if has cw .acca && decide (acc = 0#8) then true else s.zf } := by
  rw [effAcca_eq, zfAfterResult_of_line _ _ _ s.acc]

/-- The effects in the fixed order give, field by field, the values of the chain. -/
theorem applyWord_eq_chain (cw : ControlWord) (port : Addr → Byte) (s : State) :
    applyWord cw port s = chain cw port s := by
  simp only [applyWord, applyEffects, effPco_eq, effPcinc_eq, effPcin_eq, effMari_eq, effMo_eq,
    effAccl_eq_of_acc_after, effAcca_eq_of_acc_after, effAcco_eq, effIri_eq, effZfc_eq,
    effZfs_eq, effZfo_eq, effHalt_eq, effAccinc_eq, advanceStep_eq]
  rfl

/-! ## The halting cycle -/

/-- Nothing but `HALT` sets `HALTED`, and no word clears it (R77). -/
@[simp] theorem applyWord_halted (cw : ControlWord) (port : Addr → Byte) (s : State) :
    (applyWord cw port s).halted = (s.halted || has cw .halt) := by
  rw [applyWord_eq_chain]
  change (if has cw .halt then true else s.halted) = _
  cases has cw .halt <;> simp

/-- Of the values of the chain only the new `HALTED` depends on `HALT`. -/
theorem chain_or_halt (cw : ControlWord) (port : Addr → Byte) (s : State) :
    chain (cw ||| lineMask .halt) port s = { chain cw port s with halted := true } := by
  have hhalt : has (cw ||| lineMask .halt) .halt = true := by simp
  have hother : ∀ m ≠ .halt, has (cw ||| lineMask .halt) m = has cw m :=
    has_or_lineMask_other cw .halt
  simp [chain, hhalt, hother]

/-- Settles O23: the word with `HALT` added gives the same chain of values but for the new
`HALTED`, and `STEP` is advanced after every word. -/
theorem haltingCycleCompletes : Obligations.HaltingCycleCompletes := by
  unfold Obligations.HaltingCycleCompletes
  intro cw port s
  refine ⟨applyWord_halted cw port s, applyWord_stepCtr cw port s, ?_⟩
  rw [applyWord_eq_chain, applyWord_eq_chain, chain_or_halt]

end Sys2Proof.Machine
end

section
/-! SUPPORT. Proofs of the statements about the micro-programs: the step that asserts `SR`, the
column `REF_DECODER` holds for each instruction, and the table entry by entry. -/

namespace Sys2Proof.Machine

/-! ## Micro-programs -/

/-- Before its end, a micro-program of R88 asserts `SR` at its last step and nowhere else. -/
theorem has_sr_getD_of_endsWithStepReset (prog : List ControlWord) (k : Nat)
    (h : endsWithStepReset prog = true) (hk : k < prog.length) :
    has (prog.getD k emptyWord) .sr = decide (k + 1 = prog.length) := by
  induction prog generalizing k with
  | nil => exact absurd hk (Nat.not_lt_zero k)
  | cons w rest ih =>
    cases rest with
    | nil =>
      obtain rfl : k = 0 := by simpa using hk
      exact h
    | cons v rest =>
      simp only [endsWithStepReset, Bool.and_eq_true, Bool.not_eq_true'] at h
      obtain ⟨hw, hrest⟩ := h
      cases k with
      | zero => simp [hw]
      | succ k => simpa using ih k hrest (Nat.lt_of_succ_lt_succ hk)

theorem endsWithStepReset_microprogramOf (i : Instr) :
    endsWithStepReset (microprogramOf i) = true := by
  cases i <;> rfl

/-! ## The opcode of an instruction and its column of `REF_DECODER` -/

theorem microprogramOfOpcode_encode (i : Instr) :
    microprogramOfOpcode ((encode i).headD 0#8) = microprogramOf i := by
  cases i <;> rfl

theorem lookup_refDecoder_encode (i : Instr) (k : Nat) :
    lookup refDecoder k ((encode i).headD 0#8) = (microprogramOf i).getD k emptyWord := by
  rw [lookup_refDecoder, microprogramOfOpcode_encode]

/-- A defined opcode is the first byte of some instruction (R54). -/
theorem exists_encode_of_defines (op : Byte) (h : defines refDecoder op = true) :
    ∃ i : Instr, (encode i).headD 0#8 = op := by
  rcases (defines_refDecoder_iff op).mp h with rfl | rfl | rfl | rfl | rfl | rfl
  · exact ⟨.ldi 0#8, rfl⟩
  · exact ⟨.adi 0#8, rfl⟩
  · exact ⟨.inc, rfl⟩
  · exact ⟨.jmp 0#8, rfl⟩
  · exact ⟨.jz, rfl⟩
  · exact ⟨.hlt, rfl⟩

/-- Settles O28: the column of an instruction's opcode is its micro-program, which ends as R88 asks,
and an opcode of no instruction is undefined. -/
theorem microprogramsEndWithStepReset : Obligations.MicroprogramsEndWithStepReset := by
  unfold Obligations.MicroprogramsEndWithStepReset
  refine ⟨fun i k => ?_, fun op k hop => ?_⟩
  · have hsr := has_sr_getD_of_endsWithStepReset _ k (endsWithStepReset_microprogramOf i)
    rw [lookup_refDecoder_encode]
    refine ⟨rfl, fun hlast => ?_, fun hearlier => ?_⟩
    · rw [hsr (by omega), decide_eq_true hlast]
    · rw [hsr (by omega), decide_eq_false hearlier.ne]
  · refine lookup_undefined refDecoder k op (Bool.eq_false_iff.mpr fun hdef => ?_)
    obtain ⟨i, hi⟩ := exists_encode_of_defines op hdef
    exact hop i hi

/-! ## `REF_DECODER`, entry by entry -/

/-- A key without an entry yields the empty word, in any table (R51). -/
theorem lookup_of_no_entry (t : DecoderTable) (k : Nat) (op : Byte)
    (h : ∀ e ∈ t, ¬(e.step = k ∧ e.opcode = op)) : lookup t k op = emptyWord := by
  induction t with
  | nil => rfl
  | cons e rest ih =>
    obtain ⟨he, hrest⟩ := List.forall_mem_cons.mp h
    rw [lookup, if_neg he]
    exact ih hrest

/-- The micro-programs occupy different columns, and each column one entry per step (R50). -/
theorem keysUnique_refDecoder : refDecoder.KeysUnique := by
  decide

/-- Nothing in `REF_DECODER` clears or sets `ZF` by its own line, and `JZ`, the longest
micro-program, ends at step 7 (R99). -/
theorem refDecoder_zfc_zfs_step (e : DecoderEntry) (h : e ∈ refDecoder) :
    has e.word .zfc = false ∧ has e.word .zfs = false ∧ e.step ≤ 7 := by
  revert e
  decide

/-- Settles O27: the micro-programs laid out entry by entry; what the table leaves out is empty as
in every table. -/
theorem refDecoderHasTheListedEntries : Obligations.RefDecoderHasTheListedEntries := by
  unfold Obligations.RefDecoderHasTheListedEntries
  exact ⟨rfl, rfl, keysUnique_refDecoder, fun _ => rfl, refDecoder_zfc_zfs_step,
    lookup_of_no_entry refDecoder⟩

end Sys2Proof.Machine
end

section
/-! SUPPORT. Proofs of the statements about runs. The run loop is characterised once: it stops after
the first halting cycle, or after its whole budget where none of its cycles halts; both statements
read that off. -/

namespace Sys2Proof.Machine

/-! ## The run loop -/

@[simp] theorem runLoop_zero (dec : DecoderTable) (n : Nat) (s : State) :
    runLoop dec 0 n s = ⟨s, n, s.halted⟩ := rfl

theorem runLoop_succ_halted (dec : DecoderTable) (budget n : Nat) (s : State)
    (h : s.halted = true) : runLoop dec (budget + 1) n s = ⟨s, n, true⟩ := by
  simp [runLoop, h]

theorem runLoop_succ_running (dec : DecoderTable) (budget n : Nat) (s : State)
    (h : s.halted = false) :
    runLoop dec (budget + 1) n s = runLoop dec budget (n + 1) (cycle dec s) := by
  simp [runLoop, h]

/-- The loop of R122 processes `m` cycles: the machine runs before each of them, and after them it
is halted or the budget is used up. -/
theorem runLoop_eq_cycles (dec : DecoderTable) (budget n : Nat) (s : State) :
    ∃ m ≤ budget,
      runLoop dec budget n s = ⟨cycles dec m s, n + m, (cycles dec m s).halted⟩ ∧
      (∀ j < m, (cycles dec j s).halted = false) ∧
      ((cycles dec m s).halted = false → m = budget) := by
  induction budget generalizing n s with
  | zero => exact ⟨0, le_rfl, rfl, fun j hj => absurd hj (Nat.not_lt_zero j), fun _ => rfl⟩
  | succ budget ih =>
    cases hs : s.halted with
    | true =>
      refine ⟨0, Nat.zero_le _, ?_, fun j hj => absurd hj (Nat.not_lt_zero j), fun hrun => ?_⟩
      · rw [runLoop_succ_halted dec budget n s hs, cycles_zero, hs, Nat.add_zero]
      · simp [hs] at hrun
    | false =>
      obtain ⟨m, hle, hloop, hbefore, hlast⟩ := ih (n + 1) (cycle dec s)
      refine ⟨m + 1, Nat.succ_le_succ hle, ?_, fun j hj => ?_, fun hrun => ?_⟩
      · rw [runLoop_succ_running dec budget n s hs, hloop, cycles_succ, Nat.succ_add_eq_add_succ]
      · cases j with
        | zero => exact hs
        | succ j => exact hbefore j (Nat.lt_of_succ_lt_succ hj)
      · exact congrArg Nat.succ (hlast hrun)

/-! ## A run from the booted state -/

theorem run_of_boot (img : Image) (dec : DecoderTable) (budget : Nat) (s : State)
    (h : boot img = some s) : run img dec budget = some (runLoop dec budget 0 s) := by
  rw [run, h, Option.map_some]

theorem boot_halted (img : Image) (s : State) (h : boot img = some s) : s.halted = false := by
  obtain ⟨m, -, rfl⟩ := Option.map_eq_some_iff.mp h
  exact State.resetWith_halted m

/-- What a run returns: `runLoop_eq_cycles` with the count started at 0. -/
theorem run_eq_cycles (img : Image) (dec : DecoderTable) (budget : Nat) (s : State)
    (h : boot img = some s) :
    ∃ m ≤ budget,
      run img dec budget = some ⟨cycles dec m s, m, (cycles dec m s).halted⟩ ∧
      (∀ j < m, (cycles dec j s).halted = false) ∧
      ((cycles dec m s).halted = false → m = budget) := by
  obtain ⟨m, hle, hloop, hbefore, hlast⟩ := runLoop_eq_cycles dec budget 0 s
  refine ⟨m, hle, ?_, hbefore, hlast⟩
  rw [run_of_boot img dec budget s h, hloop, Nat.zero_add]

/-! ## The outcome of a run -/

theorem RunResult.outcome_halted_iff (r : RunResult) : r.outcome = .halted ↔ r.halted = true := by
  cases h : r.halted <;> simp [RunResult.outcome, h]

theorem RunResult.outcome_outOfBudget_iff (r : RunResult) :
    r.outcome = .outOfBudget ↔ r.halted = false := by
  cases h : r.halted <;> simp [RunResult.outcome, h]

/-- A machine that runs after `n` cycles was running after any fewer. -/
theorem running_of_cycles_running_le (dec : DecoderTable) (m n : Nat) (s : State) (hle : m ≤ n)
    (h : (cycles dec n s).halted = false) : (cycles dec m s).halted = false := by
  obtain ⟨k, rfl⟩ := Nat.exists_eq_add_of_le hle
  rw [cycles_add] at h
  exact running_of_cycles_running dec k (cycles dec m s) h

/-! ## The statements -/

/-- Settles O49: the flag a run returns is `HALTED` of its final state, and a running final state
means that the budget is used up. -/
theorem runHaltsOrUsesUpItsBudget : Obligations.RunHaltsOrUsesUpItsBudget := by
  unfold Obligations.RunHaltsOrUsesUpItsBudget
  intro img dec budget s hboot
  obtain ⟨m, hle, hrun, -, hlast⟩ := run_eq_cycles img dec budget s hboot
  exact ⟨_, hrun, rfl, hle, RunResult.outcome_halted_iff _, RunResult.outcome_outOfBudget_iff _,
    fun hout => hlast ((RunResult.outcome_outOfBudget_iff _).mp hout)⟩

/-- Settles O50: of the number of cycles a run processes, fewer than `n + 1` would leave the machine
running with budget left, and more would start a cycle in a halted machine. -/
theorem runCountsTheHaltingCycle : Obligations.RunCountsTheHaltingCycle := by
  unfold Obligations.RunCountsTheHaltingCycle
  intro img dec s hboot
  refine ⟨?_, fun n budget hrunning hhalts hbudget => ?_⟩
  · rw [run_of_boot img dec 0 s hboot, runLoop_zero, boot_halted img s hboot]
  · obtain ⟨m, -, hrun, hbefore, hlast⟩ := run_eq_cycles img dec budget s hboot
    have not_fewer : ¬ m ≤ n := fun hle => by
      have := hlast (running_of_cycles_running_le dec m n s hle hrunning)
      omega
    have not_more : ¬ n + 1 < m := fun hlt => by
      simpa [hhalts] using hbefore (n + 1) hlt
    obtain rfl : m = n + 1 := by omega
    rw [hrun, hhalts]

end Sys2Proof.Machine
end

section
/-! SUPPORT. Proofs of the statements about the encoding: the decoder said once per opcode value,
its inverse, the names of its refusals, and control words as sets of lines and as ROM words. -/

namespace Sys2Proof.Machine

/-! ## The decoder, one equation per opcode value -/

/-- The opcode map of R54 as a case split: the seven listed values and the rest. -/
theorem opcode_cases (op : Byte) :
    op = 0x00#8 ∨ op = 0x01#8 ∨ op = 0x02#8 ∨ op = 0x03#8 ∨ op = 0x04#8 ∨ op = 0x05#8 ∨
      op = 0x06#8 ∨ 7 ≤ op.toNat := by
  simp only [← BitVec.toNat_inj, BitVec.reduceToNat]
  omega

theorem decode_opLdi (rest : List Byte) : decode (opLdi :: rest) = withOperand opLdi .ldi rest :=
  rfl

theorem decode_opAdi (rest : List Byte) : decode (opAdi :: rest) = withOperand opAdi .adi rest :=
  rfl

theorem decode_opStoreGap (rest : List Byte) :
    decode (opStoreGap :: rest) = .error .reservedStore := rfl

theorem decode_opInc (rest : List Byte) : decode (opInc :: rest) = .ok (.inc, rest) := rfl

theorem decode_opJmp (rest : List Byte) : decode (opJmp :: rest) = withOperand opJmp .jmp rest :=
  rfl

theorem decode_opJz (rest : List Byte) : decode (opJz :: rest) = .ok (.jz, rest) := rfl

theorem decode_opHlt (rest : List Byte) : decode (opHlt :: rest) = .ok (.hlt, rest) := rfl

/-- From 0x07 on every opcode value is refused (R56). -/
theorem decode_of_seven_le (op : Byte) (rest : List Byte) (h : 7 ≤ op.toNat) :
    decode (op :: rest) = .error (.undefinedOpcode op) := by
  have hne : ∀ k : Byte, k.toNat < 7 → op ≠ k := by
    rintro k hk rfl
    omega
  simp only [decode, if_neg (hne opLdi (by decide)), if_neg (hne opAdi (by decide)),
    if_neg (hne opStoreGap (by decide)), if_neg (hne opInc (by decide)),
    if_neg (hne opJmp (by decide)), if_neg (hne opJz (by decide)), if_neg (hne opHlt (by decide))]

/-- The operand byte is taken iff there is one. -/
theorem withOperand_eq_ok_iff (op : Byte) (mk : Byte → Instr) (bytes rest : List Byte)
    (i : Instr) :
    withOperand op mk bytes = .ok (i, rest) ↔ ∃ imm, i = mk imm ∧ bytes = imm :: rest := by
  cases bytes with
  | nil => simp [withOperand]
  | cons imm bytes =>
    simp only [withOperand, Except.ok.injEq, Prod.mk.injEq, List.cons.injEq]
    constructor
    · rintro ⟨rfl, rfl⟩
      exact ⟨imm, rfl, rfl, rfl⟩
    · rintro ⟨_, rfl, rfl, rfl⟩
      exact ⟨rfl, rfl⟩

/-! ## Decode and encode -/

theorem roundTrip (i : Instr) : Laws.RoundTrip.Statement i := by
  cases i with
  | ldi imm => exact Laws.RoundTrip.ldi imm
  | adi imm => exact Laws.RoundTrip.adi imm
  | inc => exact Laws.RoundTrip.inc
  | jmp target => exact Laws.RoundTrip.jmp target
  | jz => exact Laws.RoundTrip.jz
  | hlt => exact Laws.RoundTrip.hlt

theorem decode_encode_append (i : Instr) (rest : List Byte) :
    decode (encode i ++ rest) = .ok (i, rest) := by
  obtain ⟨-, -, -, hdecode⟩ := roundTrip i
  exact hdecode rest

/-- Only the encoder's bytes decode: each opcode value that answers an instruction is that
instruction's first byte, and `withOperand` takes exactly its second. -/
theorem eq_encode_append_of_decode (i : Instr) (bytes rest : List Byte)
    (h : decode bytes = .ok (i, rest)) : bytes = encode i ++ rest := by
  cases bytes with
  | nil => cases h
  | cons op bytes =>
    rcases opcode_cases op with rfl | rfl | rfl | rfl | rfl | rfl | rfl | hop
    · obtain ⟨imm, rfl, rfl⟩ := (withOperand_eq_ok_iff opLdi .ldi bytes rest i).mp h
      rfl
    · obtain ⟨imm, rfl, rfl⟩ := (withOperand_eq_ok_iff opAdi .adi bytes rest i).mp h
      rfl
    · cases h
    · cases h
      rfl
    · obtain ⟨target, rfl, rfl⟩ := (withOperand_eq_ok_iff opJmp .jmp bytes rest i).mp h
      rfl
    · cases h
      rfl
    · cases h
      rfl
    · rw [decode_of_seven_le op bytes hop] at h
      cases h

theorem decode_eq_ok_iff (i : Instr) (bytes rest : List Byte) :
    decode bytes = .ok (i, rest) ↔ bytes = encode i ++ rest :=
  ⟨eq_encode_append_of_decode i bytes rest, fun h => h ▸ decode_encode_append i rest⟩

theorem defines_encode (i : Instr) : defines refDecoder ((encode i).headD 0#8) = true := by
  cases i <;> rfl

/-- Bytes that start with an instruction's start with its opcode. -/
theorem headD_encode_eq_of_append_eq (i : Instr) (op : Byte) (bytes rest : List Byte)
    (h : op :: bytes = encode i ++ rest) : (encode i).headD 0#8 = op := by
  cases i <;> exact (List.cons.inj h).1.symm

/-- Settles O33: the round trip of each instruction, and its converse opcode by opcode. -/
theorem decodeIsTheInverseOfEncode : Obligations.DecodeIsTheInverseOfEncode := by
  unfold Obligations.DecodeIsTheInverseOfEncode
  exact fun i bytes rest _ => decode_eq_ok_iff i bytes rest

/-- Settles O34, from the law of each constructor. -/
theorem everyInstructionRoundTrips : Obligations.EveryInstructionRoundTrips := by
  unfold Obligations.EveryInstructionRoundTrips
  exact roundTrip

/-- Settles O35: seven closed words, decoded. -/
theorem specWordsDecode : Obligations.SpecWordsDecode := by
  unfold Obligations.SpecWordsDecode
  exact ⟨rfl, rfl, rfl, rfl, rfl, rfl, rfl⟩

/-! ## The refusals by name -/

/-- A missing operand is the only refusal of a two-byte format. -/
theorem withOperand_eq_error_iff (op : Byte) (mk : Byte → Instr) (bytes : List Byte)
    (e : DecodeError) : withOperand op mk bytes = .error e ↔ bytes = [] ∧ e = .noOperand op := by
  cases bytes <;> simp [withOperand, eq_comm]

/-- Every refusal of a byte list that has a first byte: the store's gap, a value from 0x07 on, or a
two-byte format without its second byte (R54, R56, R57). -/
theorem decode_eq_error_iff (op : Byte) (rest : List Byte) (e : DecodeError) :
    decode (op :: rest) = .error e ↔
      (op = 0x02#8 ∧ e = .reservedStore) ∨ (7 ≤ op.toNat ∧ e = .undefinedOpcode op) ∨
        ((rest = [] ∧ (op = 0x00#8 ∨ op = 0x01#8 ∨ op = 0x04#8)) ∧ e = .noOperand op) := by
  rcases opcode_cases op with rfl | rfl | rfl | rfl | rfl | rfl | rfl | hop
  · simp [decode_opLdi, withOperand_eq_error_iff]
  · simp [decode_opAdi, withOperand_eq_error_iff]
  · simp [decode_opStoreGap, eq_comm]
  · simp [decode_opInc]
  · simp [decode_opJmp, withOperand_eq_error_iff]
  · simp [decode_opJz]
  · simp [decode_opHlt]
  · have hgap : op ≠ 0x02#8 := by rintro rfl; exact absurd hop (by decide)
    have htwo : ¬ (op = 0x00#8 ∨ op = 0x01#8 ∨ op = 0x04#8) := by
      rintro (rfl | rfl | rfl) <;> exact absurd hop (by decide)
    simp only [decode_of_seven_le op rest hop, hop, hgap, htwo, Except.error.injEq, true_and,
      false_and, and_false, or_false, false_or, eq_comm]

/-- With an operand byte at hand the decoder answers an instruction exactly under the defined
opcodes. -/
theorem defines_iff_decode_eq_ok (op b : Byte) (rest : List Byte) :
    defines refDecoder op = true ↔ ∃ p, decode (op :: b :: rest) = .ok p := by
  constructor
  · intro h
    rcases (defines_refDecoder_iff op).mp h with rfl | rfl | rfl | rfl | rfl | rfl <;>
      exact ⟨_, rfl⟩
  · rintro ⟨⟨i, rest'⟩, h⟩
    have hbytes := eq_encode_append_of_decode i _ _ h
    rw [← headD_encode_eq_of_append_eq i op _ _ hbytes]
    exact defines_encode i

/-- Settles O36: each name belongs to one case of `decode_eq_error_iff`, and the defined opcodes are
the values that decode. -/
theorem decoderRefusesByName : Obligations.DecoderRefusesByName := by
  unfold Obligations.DecoderRefusesByName
  intro op rest
  refine ⟨?_, ?_, ?_, defines_iff_decode_eq_ok op 0#8 rest⟩
  · simp [decode_eq_error_iff]
  · simp [decode_eq_error_iff]
  · simp [decode_eq_error_iff]

/-- Settles O37: the micro-programs, counted. -/
theorem cyclesAndReadsOfEachInstruction : Obligations.CyclesAndReadsOfEachInstruction := by
  unfold Obligations.CyclesAndReadsOfEachInstruction
  exact fun _ => ⟨rfl, rfl⟩

/-! ## Words as sets of lines -/

theorem has_wordOf_iff (ls : List ControlLine) (l : ControlLine) :
    has (wordOf ls) l = true ↔ l ∈ ls := by
  induction ls with
  | nil => simp [wordOf, has]
  | cons m ls ih => simp [wordOf, ih]

theorem mem_allLines (l : ControlLine) : l ∈ allLines := by
  cases l <;> decide

/-- Every bit of a word is the bit of a line (R48). -/
theorem exists_lineBit_eq (k : Nat) (h : k < 15) : ∃ l, lineBit l = k := by
  refine ⟨allLines[k]'h, ?_⟩
  have : ∀ j : Fin 15, lineBit (allLines[j.val]'j.isLt) = j.val := by decide
  exact this ⟨k, h⟩

/-- Words with the same lines are equal (R49). -/
theorem eq_of_has_eq {v w : ControlWord} (h : ∀ l, has v l = has w l) : v = w := by
  refine BitVec.eq_of_getLsbD_eq fun k hk => ?_
  obtain ⟨l, rfl⟩ := exists_lineBit_eq k hk
  exact h l

theorem wordOf_linesOf (cw : ControlWord) : wordOf (linesOf cw) = cw := by
  refine eq_of_has_eq fun l => ?_
  rw [Bool.eq_iff_iff, has_wordOf_iff, linesOf, List.mem_filter]
  simp [mem_allLines]

/-- Settles O24: a word and its set of lines determine each other because distinct lines have
distinct bits and every bit is a line's. -/
theorem wordsAreSetsOfLines : Obligations.WordsAreSetsOfLines := by
  unfold Obligations.WordsAreSetsOfLines
  exact ⟨rfl, has_wordOf_iff, wordOf_linesOf⟩

/-! ## Words in the ROM -/

/-- Settles O25: a stored word is widened by a zero bit, and reading drops bit 15 whatever it
is. -/
theorem romWordBitFifteenIsIgnored : Obligations.RomWordBitFifteenIsIgnored := by
  unfold Obligations.RomWordBitFifteenIsIgnored
  intro cw w
  refine ⟨?_, ?_, ?_⟩
  · simp [ofRomWord, toRomWord]
  · simp [toRomWord]
  · simp [ofRomWord, BitVec.setWidth_or]

end Sys2Proof.Machine
end

section
/-! SUPPORT. Proofs of the statements about the machine's invariant. First the facts about the words
`REF_DECODER` can answer, then one lemma for each kind of cycle: the three fetch steps, an execute
step, and idling; the invariant is read off them. -/

namespace Sys2Proof.Machine

/-! ## What `REF_DECODER` can answer -/

/-- A lookup answers the word of an entry under its key, or the empty word. -/
theorem lookup_eq_entry_or_empty (t : DecoderTable) (k : Nat) (op : Byte) :
    lookup t k op = emptyWord ∨
      ∃ e ∈ t, e.step = k ∧ e.opcode = op ∧ lookup t k op = e.word := by
  induction t with
  | nil => exact .inl rfl
  | cons e rest ih =>
    by_cases he : e.step = k ∧ e.opcode = op
    · exact .inr ⟨e, List.mem_cons_self, he.1, he.2, if_pos he⟩
    · rw [lookup, if_neg he]
      obtain hempty | ⟨d, hd, hkey⟩ := ih
      · exact .inl hempty
      · exact .inr ⟨d, List.mem_cons_of_mem e hd, hkey⟩

@[simp] theorem has_emptyWord (l : ControlLine) : has emptyWord l = false := by
  simp [has, emptyWord]

/-- A line that is asserted at a key is asserted by an entry under that key. -/
theorem exists_entry_of_has_lookup (t : DecoderTable) (k : Nat) (op : Byte) (l : ControlLine)
    (h : has (lookup t k op) l = true) :
    ∃ e ∈ t, e.step = k ∧ e.opcode = op ∧ has e.word l = true := by
  obtain hempty | ⟨e, he, hstep, hop, hword⟩ := lookup_eq_entry_or_empty t k op
  · simp [hempty] at h
  · exact ⟨e, he, hstep, hop, hword ▸ h⟩

/-- `IR` is loaded at step 1 only (R90). -/
theorem has_iri_lookup_refDecoder (k : Nat) (op : Byte) (hk : k ≠ 1) :
    has (lookup refDecoder k op) .iri = false := by
  have hentries : ∀ e ∈ refDecoder, has e.word .iri = true → e.step = 1 := by decide
  refine Bool.eq_false_iff.mpr fun h => hk ?_
  obtain ⟨e, he, rfl, -, hiri⟩ := exists_entry_of_has_lookup _ _ _ _ h
  exact hentries e he hiri

/-- `HALT` is asserted in the last word of `HLT` only (R98). -/
theorem op_eq_opHlt_of_has_halt (k : Nat) (op : Byte)
    (h : has (lookup refDecoder k op) .halt = true) : op = opHlt ∧ k = 3 := by
  have hentries : ∀ e ∈ refDecoder, has e.word .halt = true → e.opcode = opHlt ∧ e.step = 3 := by
    decide
  obtain ⟨e, he, rfl, rfl, hhalt⟩ := exists_entry_of_has_lookup _ _ _ _ h
  exact hentries e he hhalt

/-- Every defined opcode starts with the three fetch steps (R89 to R91). -/
theorem microprogramOfOpcode_eq_fetch_append (op : Byte) (h : defines refDecoder op = true) :
    ∃ rest, microprogramOfOpcode op = fetchPrefix ++ rest ∧ rest ≠ [] := by
  rcases (defines_refDecoder_iff op).mp h with rfl | rfl | rfl | rfl | rfl | rfl <;>
    exact ⟨_, rfl, by simp⟩

theorem lookup_refDecoder_fetch (k : Nat) (op : Byte) (h : defines refDecoder op = true)
    (hk : k < 3) : lookup refDecoder k op = fetchPrefix.getD k emptyWord := by
  obtain ⟨rest, hprog, -⟩ := microprogramOfOpcode_eq_fetch_append op h
  rw [lookup_refDecoder, hprog, List.getD_append _ _ _ _ hk]

theorem three_lt_length_microprogramOfOpcode (op : Byte) (h : defines refDecoder op = true) :
    3 < (microprogramOfOpcode op).length := by
  obtain ⟨rest, hprog, hrest⟩ := microprogramOfOpcode_eq_fetch_append op h
  have := List.length_pos_iff.mpr hrest
  rw [hprog, List.length_append, fetchPrefix, List.length_cons, List.length_cons,
    List.length_singleton]
  omega

theorem endsWithStepReset_microprogramOfOpcode (op : Byte) (h : defines refDecoder op = true) :
    endsWithStepReset (microprogramOfOpcode op) = true := by
  obtain ⟨i, rfl⟩ := exists_encode_of_defines op h
  rw [microprogramOfOpcode_encode]
  exact endsWithStepReset_microprogramOf i

/-- Inside a micro-program `SR` is asserted at the last step only (R88). -/
theorem has_sr_lookup_refDecoder (k : Nat) (op : Byte) (h : defines refDecoder op = true)
    (hk : k < (microprogramOfOpcode op).length) :
    has (lookup refDecoder k op) .sr = decide (k + 1 = (microprogramOfOpcode op).length) := by
  rw [lookup_refDecoder]
  exact has_sr_getD_of_endsWithStepReset _ k (endsWithStepReset_microprogramOfOpcode op h) hk

/-! ## The kinds of cycle under `REF_DECODER` -/

/-- A word without `IRI` leaves `IR` alone (R73). -/
theorem applyWord_ir_of_not_iri (cw : ControlWord) (port : Addr → Byte) (s : State)
    (h : has cw .iri = false) : (applyWord cw port s).ir = s.ir := by
  rw [applyWord_eq_chain]
  exact if_neg (by simp [h])

/-- Step 0 of the fetch (R89). -/
theorem cycle_fetchStep0 (s : State) (hrun : s.halted = false)
    (hdef : defines refDecoder s.ir = true) (hstep : s.stepCtr = 0) :
    cycle refDecoder s = { s with bus := s.pc, mar := s.pc, stepCtr := 1 } := by
  rw [cycle_running _ s hrun, hstep, lookup_refDecoder_fetch 0 s.ir hdef (by decide)]
  change applyWord (wordOf [.pco, .mari]) s.mem.read s = _
  rw [applyWord_pco_mari, hstep]

/-- Step 1 of the fetch (R90). -/
theorem cycle_fetchStep1 (s : State) (hrun : s.halted = false)
    (hdef : defines refDecoder s.ir = true) (hstep : s.stepCtr = 1) :
    cycle refDecoder s =
      { s with bus := s.mem.read s.mar, ir := s.mem.read s.mar, stepCtr := 2 } := by
  rw [cycle_running _ s hrun, hstep, lookup_refDecoder_fetch 1 s.ir hdef (by decide)]
  change applyWord (wordOf [.mo, .iri]) s.mem.read s = _
  rw [applyWord_mo_iri, hstep]

/-- Step 2 of the fetch (R91). -/
theorem cycle_fetchStep2 (s : State) (hrun : s.halted = false)
    (hdef : defines refDecoder s.ir = true) (hstep : s.stepCtr = 2) :
    cycle refDecoder s = { s with pc := s.pc + 1#8, stepCtr := 3 } := by
  rw [cycle_running _ s hrun, hstep, lookup_refDecoder_fetch 2 s.ir hdef (by decide)]
  change applyWord (wordOf [.pcinc]) s.mem.read s = _
  rw [applyWord_pcinc, hstep]

/-- From step 2 on a cycle inside a micro-program keeps `IR`, and moves `STEP` on or, in the last
word, back to 0. -/
theorem cycle_inside_program (s : State) (hrun : s.halted = false)
    (hdef : defines refDecoder s.ir = true) (hstep : 2 ≤ s.stepCtr)
    (hlt : s.stepCtr < (microprogramOfOpcode s.ir).length) :
    (cycle refDecoder s).ir = s.ir ∧
      (cycle refDecoder s).stepCtr =
        if s.stepCtr + 1 = (microprogramOfOpcode s.ir).length then 0 else s.stepCtr + 1 := by
  rw [cycle_running _ s hrun]
  refine ⟨applyWord_ir_of_not_iri _ _ s (has_iri_lookup_refDecoder _ _ (by omega)), ?_⟩
  rw [applyWord_stepCtr, has_sr_lookup_refDecoder _ _ hdef hlt]
  simp only [decide_eq_true_eq]

/-- A cycle that halts a running machine is the last of `HLT` (R108). -/
theorem cycle_halted_of_running (s : State) (hrun : s.halted = false)
    (h : (cycle refDecoder s).halted = true) : s.ir = opHlt ∧ s.stepCtr = 3 := by
  rw [cycle_running _ s hrun, applyWord_halted, hrun, Bool.false_or] at h
  exact op_eq_opHlt_of_has_halt _ _ h

/-- Under an undefined opcode a cycle only counts (R56). -/
theorem cycle_undefined (s : State) (hrun : s.halted = false)
    (hdef : defines refDecoder s.ir = false) :
    cycle refDecoder s = { s with stepCtr := s.stepCtr + 1 } :=
  cycle_of_lookup_empty refDecoder s hrun (lookup_undefined _ _ _ hdef)

/-! ## The invariant -/

/-- Idling keeps the invariant: it can only happen past step 1, where an undefined opcode is the
byte at `PC`. -/
theorem MachineInv.cycle_undefined {s : State} (h : MachineInv s) (hrun : s.halted = false)
    (hdef : defines refDecoder s.ir = false) : MachineInv (cycle refDecoder s) := by
  have htwo : 2 ≤ s.stepCtr := by
    by_contra hlt
    simp [h.fetchDefined (by omega)] at hdef
  rw [Machine.cycle_undefined s hrun hdef]
  exact {
    memCanonical := h.memCanonical
    fetchDefined := fun hle => absurd hle (by change ¬ s.stepCtr + 1 ≤ 1; omega)
    stepInProgram := fun hd => absurd hd (by simp [hdef])
    haltedAfterHlt := fun hh => absurd hh (by simp [hrun])
    afterStep0 := fun h1 => absurd h1 (by change s.stepCtr + 1 ≠ 1; omega)
    afterStep1 := fun _ _ => h.afterStep1 htwo (.inr hdef)
    afterStep2 := fun _ hd => absurd hd (by simp [hdef]) }

theorem MachineInv.cycle_fetchStep0 {s : State} (h : MachineInv s) (hrun : s.halted = false)
    (hdef : defines refDecoder s.ir = true) (hstep : s.stepCtr = 0) :
    MachineInv (cycle refDecoder s) := by
  rw [Machine.cycle_fetchStep0 s hrun hdef hstep]
  exact {
    memCanonical := h.memCanonical
    fetchDefined := fun _ => hdef
    stepInProgram := fun _ => (three_lt_length_microprogramOfOpcode s.ir hdef).trans' (by simp)
    haltedAfterHlt := fun hh => absurd hh (by simp [hrun])
    afterStep0 := fun _ => ⟨rfl, rfl⟩
    afterStep1 := fun hle => absurd hle (by simp)
    afterStep2 := fun h3 => absurd h3 (by simp) }

/-- Step 1 loads `IR` with the byte at `MAR`, which is `PC` after step 0. -/
theorem MachineInv.cycle_fetchStep1 {s : State} (h : MachineInv s) (hrun : s.halted = false)
    (hdef : defines refDecoder s.ir = true) (hstep : s.stepCtr = 1) :
    MachineInv (cycle refDecoder s) := by
  obtain ⟨-, hmar⟩ := h.afterStep0 hstep
  rw [Machine.cycle_fetchStep1 s hrun hdef hstep]
  exact {
    memCanonical := h.memCanonical
    fetchDefined := fun hle => absurd hle (by simp)
    stepInProgram := fun hd => (three_lt_length_microprogramOfOpcode _ hd).trans' (by simp)
    haltedAfterHlt := fun hh => absurd hh (by simp [hrun])
    afterStep0 := fun h1 => absurd h1 (by simp)
    afterStep1 := fun _ _ => ⟨rfl, congrArg s.mem.read hmar, hmar⟩
    afterStep2 := fun h3 => absurd h3 (by simp) }

theorem MachineInv.cycle_fetchStep2 {s : State} (h : MachineInv s) (hrun : s.halted = false)
    (hdef : defines refDecoder s.ir = true) (hstep : s.stepCtr = 2) :
    MachineInv (cycle refDecoder s) := by
  obtain ⟨hbus, hir, hmar⟩ := h.afterStep1 hstep.ge (.inl hstep)
  rw [Machine.cycle_fetchStep2 s hrun hdef hstep]
  exact {
    memCanonical := h.memCanonical
    fetchDefined := fun _ => hdef
    stepInProgram := fun _ => three_lt_length_microprogramOfOpcode s.ir hdef
    haltedAfterHlt := fun hh => absurd hh (by simp [hrun])
    afterStep0 := fun h1 => absurd h1 (by simp)
    afterStep1 := fun _ hor => absurd hor (by simp [hdef])
    afterStep2 := fun _ _ => ⟨congrArg (· + 1#8) hmar.symm, hbus, hmar ▸ hir⟩ }

/-- An execute step keeps `IR` and ends at `STEP` 0 or past 3, so of the clauses only those about
the opcode and the halt say anything afterwards. -/
theorem MachineInv.cycle_executeStep {s : State} (h : MachineInv s) (hrun : s.halted = false)
    (hdef : defines refDecoder s.ir = true) (hstep : 3 ≤ s.stepCtr) :
    MachineInv (cycle refDecoder s) := by
  have hlt := h.stepInProgram hdef
  obtain ⟨hir, hnext⟩ := cycle_inside_program s hrun hdef (by omega) hlt
  have hdef' : defines refDecoder (cycle refDecoder s).ir = true := hir ▸ hdef
  have hnext' : (cycle refDecoder s).stepCtr = 0 ∨ 4 ≤ (cycle refDecoder s).stepCtr := by
    rw [hnext]
    split <;> omega
  exact {
    memCanonical := (cycle_mem refDecoder s).symm ▸ h.memCanonical
    fetchDefined := fun _ => hdef'
    stepInProgram := fun _ => by
      rw [hir, hnext]
      split <;> omega
    haltedAfterHlt := fun hh => by
      obtain ⟨hop, hthree⟩ := cycle_halted_of_running s hrun hh
      refine ⟨?_, hir.trans hop⟩
      rw [hnext, hop, hthree]
      rfl
    afterStep0 := fun h1 => by omega
    afterStep1 := fun htwo hor => by
      rcases hor with h2 | hundef
      · omega
      · simp [hdef'] at hundef
    afterStep2 := fun h3 => by omega }

theorem MachineInv.cycle {s : State} (h : MachineInv s) : MachineInv (cycle refDecoder s) := by
  cases hrun : s.halted with
  | true => rwa [cycle_halted refDecoder s hrun]
  | false =>
    cases hdef : defines refDecoder s.ir with
    | false => exact h.cycle_undefined hrun hdef
    | true =>
      match hstep : s.stepCtr with
      | 0 => exact h.cycle_fetchStep0 hrun hdef hstep
      | 1 => exact h.cycle_fetchStep1 hrun hdef hstep
      | 2 => exact h.cycle_fetchStep2 hrun hdef hstep
      | k + 3 => exact h.cycle_executeStep hrun hdef (by omega)

/-- Settles O13: one lemma per kind of cycle, from any state that meets the invariant. -/
theorem everyCycleKeepsTheMachineInvariant : Obligations.EveryCycleKeepsTheMachineInvariant := by
  unfold Obligations.EveryCycleKeepsTheMachineInvariant
  exact fun _ h => h.cycle

theorem MachineInv.cycles {s : State} (h : MachineInv s) (n : Nat) :
    MachineInv (cycles refDecoder n s) := by
  induction n generalizing s with
  | zero => exact h
  | succ n ih => exact ih h.cycle

theorem machineInv_resetWith (m : Memory) (h : m.wf) : MachineInv (State.resetWith m) where
  memCanonical := h
  fetchDefined _ := (defines_refDecoder_iff _).mpr (.inl rfl)
  stepInProgram _ := (by decide : 0 < (microprogramOfOpcode opLdi).length)
  haltedAfterHlt hh := by cases hh
  afterStep0 h1 := by cases h1
  afterStep1 h2 := by cases h2
  afterStep2 h3 := by cases h3

/-- Settles O15: every clause but the one about memory is about registers, whose reset values are
fixed. -/
theorem resetMeetsTheMachineInvariant : Obligations.ResetMeetsTheMachineInvariant := by
  unfold Obligations.ResetMeetsTheMachineInvariant
  exact ⟨machineInv_resetWith [] Memory.nil_wf, machineInv_resetWith⟩

end Sys2Proof.Machine
end

section
/-! SUPPORT. Proofs of the statements about one control word: the chain of values field by field,
the rule of `ZF`, single lines and combinations of lines, and the ports of the block. -/

namespace Sys2Proof.Machine

/-! ## The fields after a word, read off the chain of values (R82) -/

theorem applyWord_pc (cw : ControlWord) (port : Addr → Byte) (s : State) :
    (applyWord cw port s).pc =
      if has cw .pcin then (if has cw .pco then s.pc else s.bus)
      else if has cw .pcinc then s.pc + 1#8 else s.pc := by
  rw [applyWord_eq_chain]
  rfl

theorem applyWord_mar (cw : ControlWord) (port : Addr → Byte) (s : State) :
    (applyWord cw port s).mar =
      if has cw .mari then (if has cw .pco then s.pc else s.bus) else s.mar := by
  rw [applyWord_eq_chain]
  rfl

/-- Settles O18: the effects of a word are the chain, and a running cycle applies its word. -/
theorem cycleIsTheChainOfValues : Obligations.CycleIsTheChainOfValues := by
  unfold Obligations.CycleIsTheChainOfValues
  refine ⟨applyWord_eq_chain, fun dec s => ?_⟩
  cases hrun : s.halted with
  | true => simp [cycle_halted dec s hrun]
  | false => simp [cycle_running dec s hrun, applyWord_eq_chain]

/-- Settles O19: each field of the chain, with the names of the statement put in. -/
theorem busDriversHaveAFixedPriority : Obligations.BusDriversHaveAFixedPriority := by
  unfold Obligations.BusDriversHaveAFixedPriority
  rintro cw port s _ _ _ _ rfl rfl rfl rfl
  refine ⟨applyWord_pc cw port s, applyWord_mar cw port s, ?_⟩
  rw [applyWord_eq_chain]
  exact ⟨rfl, rfl, rfl⟩

/-! ## The zero flag -/

/-- What load and add read from the bus: memory at the new `MAR` if `MO`, else `PC` if `PCO`, else
the held bus (R83). -/
def loadedValue (cw : ControlWord) (port : Addr → Byte) (s : State) : Byte :=
  if has cw .mo then port (applyWord cw port s).mar
  else if has cw .pco then s.pc else s.bus

/-- What `ACCA` writes (R71, R83). -/
def addedValue (cw : ControlWord) (port : Addr → Byte) (s : State) : Byte :=
  (if has cw .accl then loadedValue cw port s else s.acc) + loadedValue cw port s

/-- The accumulator after a word in which `ACCINC` does not act. -/
theorem applyWord_acc_of_not_accinc (cw : ControlWord) (port : Addr → Byte) (s : State)
    (h : has cw .accinc = false) :
    (applyWord cw port s).acc =
      if has cw .acca then addedValue cw port s
      else if has cw .accl then loadedValue cw port s else s.acc := by
  rw [addedValue, loadedValue, applyWord_eq_chain]
  exact if_neg (by simp [h])

/-- A line that writes a result sets `ZF` if the result is zero, and else leaves it. -/
theorem ite_zfAfterResult (c z : Bool) (v : Byte) :
    (if c then zfAfterResult z v else z) = (z || (c && decide (v = 0#8))) := by
  cases c <;> simp [zfAfterResult_eq]

/-- `ZF` after any word: `ZFS` over `ZFC` over what was there and what load and add found zero
(R70, R71, R74, R75). -/
theorem applyWord_zf (cw : ControlWord) (port : Addr → Byte) (s : State) :
    (applyWord cw port s).zf =
      (has cw .zfs || (!has cw .zfc && (s.zf ||
        (has cw .accl && decide (loadedValue cw port s = 0#8)) ||
        (has cw .acca && decide (addedValue cw port s = 0#8))))) := by
  have hchain : (applyWord cw port s).zf =
      if has cw .zfs then true else if has cw .zfc then false else
        if has cw .acca then
          zfAfterResult (if has cw .accl then zfAfterResult s.zf (loadedValue cw port s) else s.zf)
            (addedValue cw port s)
        else if has cw .accl then zfAfterResult s.zf (loadedValue cw port s) else s.zf := by
    simp only [loadedValue, addedValue, applyWord_mar]
    simp only [applyWord, applyEffects, effPco_eq, effPcinc_eq, effPcin_eq, effMari_eq, effMo_eq,
      effAccl_eq, effAcca_eq, effAcco_eq, effIri_eq, effZfc_eq, effZfs_eq, effZfo_eq, effHalt_eq,
      effAccinc_eq, advanceStep_eq]
  simp [hchain, ite_zfAfterResult, Bool.if_true_left, Bool.if_false_left]

/-- A set `ZF` is cleared by `ZFC` only (R17). -/
theorem applyWord_zf_of_set (cw : ControlWord) (port : Addr → Byte) (s : State)
    (hset : s.zf = true) (hzfc : has cw .zfc = false) : (applyWord cw port s).zf = true := by
  simp [applyWord_zf, hset, hzfc]

/-- Settles O20: every clause is the formula of `applyWord_zf` under the clause's lines. -/
theorem zfIsSetByZeroAndClearedByZfcOnly : Obligations.ZfIsSetByZeroAndClearedByZfcOnly := by
  unfold Obligations.ZfIsSetByZeroAndClearedByZfcOnly
  rintro cw port s _ _ loaded sum rfl rfl hloaded hsum
  obtain rfl : loaded = loadedValue cw port s := hloaded
  obtain rfl : sum = addedValue cw port s := hsum
  have hzf := applyWord_zf cw port s
  have hacc := applyWord_acc_of_not_accinc cw port s
  refine ⟨fun hzfs => ?_, fun hzfs hzfc => ?_, applyWord_zf_of_set cw port s,
    fun hzfs hzfc => ?_, fun hzfs hzfc haccl hacca => ?_,
    fun hzfs hzfc haccinc hor hzero => ?_, fun hzfs hzfc hclear hset => ?_⟩
  · simp [hzf, hzfs]
  · simp [hzf, hzfs, hzfc]
  · simp [hzf, hzfs, hzfc, or_assoc]
  · simp [hzf, hzfs, hzfc, haccl, hacca]
  · rw [hacc haccinc] at hzero
    cases hacca : has cw .acca with
    | true =>
      rw [hacca, if_pos rfl] at hzero
      simp [hzf, hzfs, hzfc, hacca, hzero]
    | false =>
      have haccl : has cw .accl = true := hor.resolve_right (by simp [hacca])
      rw [hacca, haccl, if_neg Bool.false_ne_true, if_pos rfl] at hzero
      simp [hzf, hzfs, hzfc, haccl, hzero]
  · cases haccl : has cw .accl with
    | true => exact .inl rfl
    | false =>
      cases hacca : has cw .acca with
      | true => exact .inr rfl
      | false => simp [hzf, hzfs, hzfc, hclear, haccl, hacca] at hset

/-! ## Single lines and combinations -/

/-- Settles O21: under a word with one line every other effect is the identity; what `ACCL` and
`ACCA` do to `ZF` is `zfAfterResult`. -/
theorem eachLineAloneDoesItsTransfer : Obligations.EachLineAloneDoesItsTransfer := by
  unfold Obligations.EachLineAloneDoesItsTransfer
  intro port s
  simp only [← zfAfterResult_eq]
  exact ⟨rfl, rfl, rfl, rfl, rfl, rfl, rfl, rfl, rfl, rfl, rfl, rfl, rfl, rfl, rfl, rfl⟩

/-- Doubling gives zero from 0x00 and 0x80 only. -/
theorem byte_add_self_eq_zero_iff (b : Byte) : b + b = 0#8 ↔ b = 0x00#8 ∨ b = 0x80#8 := by
  simp only [← BitVec.toNat_inj, BitVec.toNat_add, BitVec.reduceToNat]
  omega

/-- Load and add in one word: the load doubles as the first summand, and a zero load doubles to
zero, so the sum decides (R84). -/
theorem applyWord_accl_acca_zf (port : Addr → Byte) (s : State) :
    (applyWord (wordOf [.accl, .acca]) port s).zf =
      (s.zf || decide (s.bus = 0x00#8 ∨ s.bus = 0x80#8)) := by
  change zfAfterResult (zfAfterResult s.zf s.bus) (s.bus + s.bus) = _
  simp only [zfAfterResult_eq, byte_add_self_eq_zero_iff, Bool.decide_or, Bool.or_assoc,
    Bool.or_self_left]

/-- Settles O22: the rows in which `ZF` follows a result go through `zfAfterResult`, the others are
the order of the effects. -/
theorem combinedLinesActInTheFixedOrder : Obligations.CombinedLinesActInTheFixedOrder := by
  unfold Obligations.CombinedLinesActInTheFixedOrder
  intro port s
  refine ⟨rfl, rfl, rfl, rfl, rfl, rfl, rfl, rfl, rfl, rfl, rfl, rfl, ?_, rfl, rfl,
    applyWord_accl_acca_zf port s, rfl, rfl, ?_, rfl, rfl, rfl, fun _ => rfl, rfl, rfl, rfl, rfl,
    rfl, rfl, rfl, rfl⟩
  · rw [← zfAfterResult_eq]
    rfl
  · rw [← zfAfterResult_eq]
    rfl

/-! ## The ports of the block -/

theorem blockEdge_of_halted (inp : Inputs) (s : State) (hrst : inp.rst = false)
    (h : s.halted = true) : blockEdge inp s = s := by
  simp [blockEdge, hrst, h]

theorem blockEdge_of_running (inp : Inputs) (s : State) (hrst : inp.rst = false)
    (h : s.halted = false) :
    blockEdge inp s = applyWord inp.romData (fun _ => inp.memRdata) s := by
  simp [blockEdge, hrst, h]

/-- A running block presents the `MAR` its word leaves, whatever memory answers (R37, R82). -/
theorem memAddr_eq_applyWord_mar (cw : ControlWord) (port : Addr → Byte) (s : State)
    (h : s.halted = false) : memAddr cw s = (applyWord cw port s).mar := by
  rw [memAddr_running cw s h, applyWord_mar]

/-- A word looks at the memory port once, at the new `MAR`, and only if it asserts `MO` (R69). -/
theorem applyWord_congr_port (cw : ControlWord) (p q : Addr → Byte) (s : State)
    (h : has cw .mo = true → p (applyWord cw p s).mar = q (applyWord cw p s).mar) :
    applyWord cw p s = applyWord cw q s := by
  have hread : (if has cw .mo then p (applyWord cw p s).mar else
        if has cw .pco then s.pc else s.bus) =
      if has cw .mo then q (applyWord cw p s).mar else if has cw .pco then s.pc else s.bus := by
    split
    · exact h ‹_›
    · rfl
  rw [applyWord_mar] at hread
  rw [applyWord_eq_chain, applyWord_eq_chain]
  simp only [chain, hread]

/-- Settles O54: both are the value `MARI` leaves in `MAR`, or the stored `MAR` when halted. -/
theorem memAddrIsTheNextMar : Obligations.MemAddrIsTheNextMar := by
  unfold Obligations.MemAddrIsTheNextMar
  intro bits cw s
  change (∀ b, memAddr cw s = _) ∧ (_ → memAddr cw s = s.mar) ∧
    ∀ dec, _ → memAddr cw s = (cycle dec s).mar
  refine ⟨fun b => ?_, memAddr_halted cw s, ?_⟩
  · cases hrun : s.halted with
    | true => rw [memAddr_halted cw s hrun, blockEdge_of_halted _ s rfl hrun]
    | false => rw [blockEdge_of_running _ s rfl hrun, memAddr_eq_applyWord_mar cw _ s hrun]
  · rintro dec rfl
    cases hrun : s.halted with
    | true => rw [memAddr_halted _ s hrun, cycle_halted dec s hrun]
    | false => rw [cycle_running dec s hrun, memAddr_eq_applyWord_mar _ _ s hrun]

/-- An edge of the block is an edge of the machine as soon as `mem_rdata` carries what a word that
asserts `MO` reads. -/
theorem blockEdge_eq_clockEdge (dec : DecoderTable) (rst : Bool) (b : Byte) (s : State)
    (h : has (lookup dec s.stepCtr s.ir) .mo = true →
      b = s.mem.read (memAddr (lookup dec s.stepCtr s.ir) s)) :
    blockEdge ⟨rst, lookup dec s.stepCtr s.ir, b⟩ s = clockEdge dec rst s := by
  cases rst with
  | true => rfl
  | false =>
    rw [clockEdge_false]
    cases hrun : s.halted with
    | true => rw [blockEdge_of_halted _ s rfl hrun, cycle_halted dec s hrun]
    | false =>
      rw [blockEdge_of_running _ s rfl hrun, cycle_running dec s hrun]
      refine applyWord_congr_port _ _ _ s fun hmo => ?_
      rw [← memAddr_eq_applyWord_mar _ _ s hrun]
      exact h hmo

/-- Settles O46: with the wiring `mem_rdata` is the cell at `mem_addr`, and with `mem_re = 0` the
word does not look at it. -/
theorem blockWithItsPortsWiredIsTheCycle : Obligations.BlockWithItsPortsWiredIsTheCycle := by
  unfold Obligations.BlockWithItsPortsWiredIsTheCycle
  rintro dec bits rst s _ rfl
  refine ⟨blockEdge_eq_clockEdge dec rst _ s fun _ => rfl, fun hre b => ?_⟩
  refine blockEdge_eq_clockEdge dec rst b s fun hmo => ?_
  exact absurd (hmo.symm.trans hre) (by decide)

end Sys2Proof.Machine
end

section
/-! SUPPORT. Proofs of the statements about the fetch: the three fetch steps as a run, what an
undefined opcode does to them, and what of the state they forget. -/

namespace Sys2Proof.Machine

theorem idlesForEver_of_undefined (s : State) (hrun : s.halted = false)
    (hdef : defines refDecoder s.ir = false) : IdlesForEver refDecoder s :=
  idlesForEver_of_lookup_empty refDecoder s hrun fun k _ => lookup_undefined refDecoder k s.ir hdef

/-- The state after the first two fetch steps (R89, R90). -/
def afterFetch (s : State) : State :=
  { s with bus := s.mem.read s.pc, mar := s.pc, ir := s.mem.read s.pc, stepCtr := 2 }

theorem cycles_one_of_fetch (s : State) (hrun : s.halted = false)
    (hdef : defines refDecoder s.ir = true) (hstep : s.stepCtr = 0) :
    cycles refDecoder 1 s = { s with bus := s.pc, mar := s.pc, stepCtr := 1 } :=
  cycle_fetchStep0 s hrun hdef hstep

theorem cycles_two_of_fetch (s : State) (hrun : s.halted = false)
    (hdef : defines refDecoder s.ir = true) (hstep : s.stepCtr = 0) :
    cycles refDecoder 2 s = afterFetch s := by
  rw [cycles_succ_last, cycles_one_of_fetch s hrun hdef hstep]
  exact cycle_fetchStep1 _ hrun hdef rfl

/-- The third fetch step is looked up under the byte just fetched (R91). -/
theorem cycle_afterFetch (s : State) (hrun : s.halted = false) :
    cycle refDecoder (afterFetch s) =
      { afterFetch s with
        stepCtr := 3
        pc := if defines refDecoder (s.mem.read s.pc) then s.pc + 1#8 else s.pc } := by
  cases hop : defines refDecoder (s.mem.read s.pc) with
  | true => exact cycle_fetchStep2 (afterFetch s) hrun hop rfl
  | false => exact cycle_undefined (afterFetch s) hrun hop

/-- Settles O16: the fetch step by step, and idling where `IR` is undefined. -/
theorem fetchPrefixNeedsADefinedOpcode : Obligations.FetchPrefixNeedsADefinedOpcode := by
  unfold Obligations.FetchPrefixNeedsADefinedOpcode
  intro s hstep hrun
  refine ⟨fun hdef => ?_, fun hdef n => ?_⟩
  · have htwo := cycles_two_of_fetch s hrun hdef hstep
    refine ⟨cycles_one_of_fetch s hrun hdef hstep, htwo, ?_⟩
    rw [cycles_succ_last, htwo, cycle_afterFetch s hrun]
    rfl
  · rw [idlesForEver_of_undefined s hrun hdef n, hstep, Nat.zero_add]

/-- Settles O7: after the fetch has loaded the undefined opcode its column is empty, and a machine
that idles from then on has not halted before. -/
theorem undefinedOpcodeHangsForEver : Obligations.UndefinedOpcodeHangsForEver := by
  unfold Obligations.UndefinedOpcodeHangsForEver
  rintro s _ hboundary hundef rfl
  obtain ⟨hstep, hrun, hdef⟩ := (atBoundary_iff s).mp hboundary
  have hop : defines refDecoder (s.mem.read s.pc) = false :=
    (defines_refDecoder_eq_false_iff _).mpr hundef
  have htwo := cycles_two_of_fetch s hrun hdef hstep
  have hidle : ∀ k, cycles refDecoder (2 + k) s = { afterFetch s with stepCtr := 2 + k } :=
    fun k => by
      rw [cycles_add, htwo]
      exact idlesForEver_of_undefined (afterFetch s) hrun hop k
  refine ⟨cycles_one_of_fetch s hrun hdef hstep, hidle, ?_⟩
  rintro ⟨n, hn⟩
  have hlater : (cycles refDecoder (2 + n) s).halted = false := by
    rw [hidle n]
    exact hrun
  have hnow := running_of_cycles_running_le refDecoder n (2 + n) s (Nat.le_add_left n 2) hlater
  exact Bool.false_ne_true (hnow.symm.trans hn)

/-- Settles O17: two fetch steps overwrite `BUS`, `MAR` and `IR` and read none of them but, for the
lookup, a defined `IR`. -/
theorem leftoverBusMarIrDoNotMatter : Obligations.LeftoverBusMarIrDoNotMatter := by
  unfold Obligations.LeftoverBusMarIrDoNotMatter
  intro s b m r n hboundary hr
  obtain ⟨hstep, hrun, hdef⟩ := (atBoundary_iff s).mp hboundary
  rw [cycles_add, cycles_add, cycles_two_of_fetch s hrun hdef hstep,
    cycles_two_of_fetch { s with bus := b, mar := m, ir := r } hrun hr hstep]
  rfl

end Sys2Proof.Machine
end

section
/-! SUPPORT. Proofs of the statements about `exec`: the state the spec says each instruction leaves
(`stateAfter`), the run of its words, which reaches that state, and the frame. -/

namespace Sys2Proof.Machine

/-! ## The state each instruction leaves -/

/-- Where `JZ` leaves `PC`: one byte on, and one more if `ZF` is set (R107). -/
def jzTarget (s : State) : Addr := if s.zf then s.pc + 2#8 else s.pc + 1#8

/-- The "State after" of R103 to R108. -/
def stateAfter : Instr → State → State
  | .ldi imm, s => { s with
      acc := imm, zf := s.zf || decide (imm = 0#8), pc := s.pc + 2#8, mar := s.pc + 1#8,
      bus := imm, ir := 0x00#8, stepCtr := 0 }
  | .adi imm, s => { s with
      acc := s.acc + imm, zf := s.zf || decide (s.acc + imm = 0#8), pc := s.pc + 2#8,
      mar := s.pc + 1#8, bus := imm, ir := 0x01#8, stepCtr := 0 }
  | .inc, s => { s with
      acc := s.acc + 1#8, pc := s.pc + 1#8, mar := s.pc, bus := 0x03#8, ir := 0x03#8,
      stepCtr := 0 }
  | .jmp target, s => { s with
      pc := target, mar := s.pc + 1#8, bus := target, ir := 0x04#8, stepCtr := 0 }
  | .jz, s => { s with
      pc := jzTarget s, acc := jzTarget s, bus := jzTarget s, zf := true, mar := s.pc,
      ir := 0x05#8, stepCtr := 0 }
  | .hlt, s => { s with
      halted := true, pc := s.pc + 1#8, mar := s.pc, bus := 0x06#8, ir := 0x06#8, stepCtr := 0 }

@[simp] theorem stateAfter_stepCtr (i : Instr) (s : State) : (stateAfter i s).stepCtr = 0 := by
  cases i <;> rfl

/-! ## The run of an instruction's words -/

theorem applyWords_nil (port : Addr → Byte) (s : State) : applyWords port [] s = s := rfl

theorem applyWords_cons_running (port : Addr → Byte) (w : ControlWord) (ws : List ControlWord)
    (s : State) (h : s.halted = false) :
    applyWords port (w :: ws) s = applyWords port ws (applyWord w port s) := by
  simp [applyWords, h]

/-- The three fetch steps with any memory port (R89 to R91). -/
theorem applyWords_fetch_append (port : Addr → Byte) (ws : List ControlWord) (s : State)
    (h : s.halted = false) :
    applyWords port (fetchPrefix ++ ws) s =
      applyWords port ws { s with
        bus := port s.pc, mar := s.pc, ir := port s.pc, pc := s.pc + 1#8,
        stepCtr := s.stepCtr + 3 } := by
  simp only [fetchPrefix, List.cons_append, List.nil_append, applyWords_cons_running, h,
    applyWord_pco_mari, applyWord_mo_iri, applyWord_pcinc]

theorem addr_add_one_add_one (a : Addr) : a + 1#8 + 1#8 = a + 2#8 := BitVec.add_assoc a 1#8 1#8

theorem runMicroprogram_ldi (imm : Byte) (s : State) (h : s.halted = false) :
    runMicroprogram [opLdi, imm] microLdi s = stateAfter (.ldi imm) s := by
  rw [runMicroprogram, microLdi, applyWords_fetch_append _ _ s h, portShowing_pc]
  simp only [applyWords_cons_running, applyWords_nil, h, applyWord_pco_mari, applyWord_mo_accl,
    applyWord_pcinc_sr, portShowing_pc_succ, addr_add_one_add_one, zfAfterResult_eq, stateAfter]

theorem runMicroprogram_adi (imm : Byte) (s : State) (h : s.halted = false) :
    runMicroprogram [opAdi, imm] microAdi s = stateAfter (.adi imm) s := by
  rw [runMicroprogram, microAdi, applyWords_fetch_append _ _ s h, portShowing_pc]
  simp only [applyWords_cons_running, applyWords_nil, h, applyWord_pco_mari, applyWord_mo_acca,
    applyWord_pcinc_sr, portShowing_pc_succ, addr_add_one_add_one, zfAfterResult_eq, stateAfter]

theorem runMicroprogram_inc (s : State) (h : s.halted = false) :
    runMicroprogram [opInc] microInc s = stateAfter .inc s := by
  rw [runMicroprogram, microInc, applyWords_fetch_append _ _ s h, portShowing_pc]
  simp only [applyWords_cons_running, applyWords_nil, h, applyWord_accinc_sr, stateAfter]

theorem runMicroprogram_jmp (target : Byte) (s : State) (h : s.halted = false) :
    runMicroprogram [opJmp, target] microJmp s = stateAfter (.jmp target) s := by
  rw [runMicroprogram, microJmp, applyWords_fetch_append _ _ s h, portShowing_pc]
  simp only [applyWords_cons_running, applyWords_nil, h, applyWord_pco_mari, applyWord_mo,
    applyWord_pcin_sr, portShowing_pc_succ, stateAfter]

/-- What `JZ` adds up: the flag as a byte and the address after the opcode. -/
theorem zfToByte_add_succ_pc (s : State) : zfToByte s.zf + (s.pc + 1#8) = jzTarget s := by
  unfold jzTarget
  cases s.zf with
  | false => exact BitVec.zero_add _
  | true => exact (BitVec.add_comm _ _).trans (addr_add_one_add_one s.pc)

theorem zfAfterResult_true (v : Byte) : zfAfterResult true v = true := by
  simp [zfAfterResult]

/-- A clear flag, loaded as the byte 0, sets `ZF`; a set one stays set (R107). -/
theorem zfAfterResult_zfToByte (z : Bool) : zfAfterResult z (zfToByte z) = true := by
  cases z <;> rfl

theorem runMicroprogram_jz (s : State) (h : s.halted = false) :
    runMicroprogram [opJz] microJz s = stateAfter .jz s := by
  rw [runMicroprogram, microJz, applyWords_fetch_append _ _ s h, portShowing_pc]
  simp only [applyWords_cons_running, applyWords_nil, h, applyWord_zfo, applyWord_accl,
    applyWord_pco_acca, applyWord_acco, applyWord_pcin_sr, zfToByte_add_succ_pc,
    zfAfterResult_zfToByte, zfAfterResult_true, stateAfter]

theorem runMicroprogram_hlt (s : State) (h : s.halted = false) :
    runMicroprogram [opHlt] microHlt s = stateAfter .hlt s := by
  rw [runMicroprogram, microHlt, applyWords_fetch_append _ _ s h, portShowing_pc]
  simp only [applyWords_cons_running, applyWords_nil, h, applyWord_halt_sr, stateAfter]

/-- On a running machine an instruction's words lead to the state the spec says. -/
theorem runMicroprogram_eq_stateAfter (i : Instr) (s : State) (h : s.halted = false) :
    runMicroprogram (encode i) (microprogramOf i) s = stateAfter i s := by
  cases i with
  | ldi imm => exact runMicroprogram_ldi imm s h
  | adi imm => exact runMicroprogram_adi imm s h
  | inc => exact runMicroprogram_inc s h
  | jmp target => exact runMicroprogram_jmp target s h
  | jz => exact runMicroprogram_jz s h
  | hlt => exact runMicroprogram_hlt s h

theorem exec_running (i : Instr) (s : State) (h : s.halted = false) :
    exec i s = .next (stateAfter i s) := by
  rw [exec_eq_next_runMicroprogram, runMicroprogram_eq_stateAfter i s h]

theorem exec_halted (i : Instr) (s : State) (h : s.halted = true) : exec i s = .next s := by
  rw [exec_eq_next_runMicroprogram, runMicroprogram, applyWords_halted _ _ s h]

/-- Settles O9: no word is applied to a halted machine. -/
theorem haltedMachineExecutesNothing : Obligations.HaltedMachineExecutesNothing := by
  unfold Obligations.HaltedMachineExecutesNothing
  exact exec_halted

/-- Settles O8: the frame is read off `stateAfter`, memory's off `exec_keeps_mem`. -/
theorem instructionsChangeOnlyTheirTargets : Obligations.InstructionsChangeOnlyTheirTargets := by
  unfold Obligations.InstructionsChangeOnlyTheirTargets
  intro i s t hrun hexec
  have hmem := exec_keeps_mem i s t hexec
  rw [exec_running i s hrun] at hexec
  cases hexec
  refine ⟨fun a => by rw [hmem], ?_⟩
  cases i <;> simp +contextual [stateAfter, encode, hrun]

end Sys2Proof.Machine
end

section
/-! SUPPORT. Proofs of the statements about one instruction of the machine: the cycles of
`REF_DECODER` from a boundary apply the words of the instruction memory holds at `PC`, and so lead
to the state `exec` answers. -/

namespace Sys2Proof.Machine

/-! ## The instruction that a step fetches -/

@[simp] theorem memHolds_one (m : Memory) (a : Addr) (b : Byte) :
    memHolds m a [b] = true ↔ m.read a = b := by
  simp [memHolds]

@[simp] theorem memHolds_two (m : Memory) (a : Addr) (b c : Byte) :
    memHolds m a [b, c] = true ↔ m.read a = b ∧ m.read (a + 1#8) = c := by
  simp only [memHolds, Bool.and_true, Bool.and_eq_true, decide_eq_true_eq]
  rfl

/-- The two bytes at `PC` start with an instruction's bytes iff memory holds it there. -/
theorem holdsAtPc_iff (i : Instr) (s : State) :
    HoldsAtPc i s ↔ ∃ rest, bytesAtPc s = encode i ++ rest := by
  unfold HoldsAtPc bytesAtPc addrPlus
  cases i <;> simp [encode]

/-- The step fetches the instruction memory holds at `PC`, at a boundary. -/
theorem fetched_eq_some_iff_holdsAtPc (s : State) (i : Instr) :
    fetched s = some i ↔ atBoundary s = true ∧ HoldsAtPc i s := by
  simp only [fetched_eq_some_iff, holdsAtPc_iff, decode_eq_ok_iff]

/-- Settles O10: the three branches of `step`. -/
theorem stepRunsTheDecodedInstruction : Obligations.StepRunsTheDecodedInstruction := by
  unfold Obligations.StepRunsTheDecodedInstruction
  refine ⟨fun s i rest hboundary hdecode => ?_, step_halted, fun s hrun hor => ?_⟩
  · obtain ⟨-, hrun, -⟩ := (atBoundary_iff s).mp hboundary
    obtain ⟨hwf, -⟩ := roundTrip i
    exact ⟨hwf, step_of_fetched_some s i hrun
      ((fetched_eq_some_iff s i).mpr ⟨hboundary, rest, hdecode⟩)⟩
  · refine step_of_fetched_none s hrun (Option.eq_none_iff_forall_ne_some.mpr fun i hi => ?_)
    obtain ⟨hboundary, rest, hdecode⟩ := (fetched_eq_some_iff s i).mp hi
    rcases hor with hnot | ⟨e, he⟩
    · simp [hboundary] at hnot
    · cases hdecode.symm.trans he

/-! ## The cycles of `REF_DECODER` apply the instruction's words -/

/-- Short of the last word of its micro-program the machine runs on under the same opcode, one
step a cycle. -/
theorem cycles_inside_program (s : State) (k : Nat) (hrun : s.halted = false)
    (hdef : defines refDecoder s.ir = true) (hstep : 2 ≤ s.stepCtr)
    (hlt : s.stepCtr + k < (microprogramOfOpcode s.ir).length) :
    (cycles refDecoder k s).halted = false ∧ (cycles refDecoder k s).ir = s.ir ∧
      (cycles refDecoder k s).stepCtr = s.stepCtr + k := by
  induction k with
  | zero => exact ⟨hrun, rfl, rfl⟩
  | succ k ih =>
    obtain ⟨hrun', hir', hstep'⟩ := ih (by omega)
    rw [cycles_succ_last]
    generalize cycles refDecoder k s = u at hrun' hir' hstep'
    obtain ⟨hir, hnext⟩ := cycle_inside_program u hrun' (hir' ▸ hdef) (by omega)
      (by rw [hir']; omega)
    refine ⟨Bool.eq_false_iff.mpr fun hhalt => ?_, hir.trans hir', ?_⟩
    · obtain ⟨hop, hthree⟩ := cycle_halted_of_running u hrun' hhalt
      rw [← hir', hop, microprogramOfOpcode_hlt] at hlt
      change s.stepCtr + (k + 1) < 4 at hlt
      omega
    · rw [hnext, hir', if_neg (by omega)]
      omega

/-- From step 2 on, the cycles to the end of a micro-program apply the words that are left. -/
theorem cycles_eq_applyWords (ws : List ControlWord) (s : State) (hrun : s.halted = false)
    (hdef : defines refDecoder s.ir = true) (hstep : 2 ≤ s.stepCtr)
    (hws : (microprogramOfOpcode s.ir).drop s.stepCtr = ws) :
    cycles refDecoder ws.length s = applyWords s.mem.read ws s := by
  induction ws generalizing s with
  | nil => rfl
  | cons w rest ih =>
    have hlength := congrArg List.length hws
    rw [List.length_drop, List.length_cons] at hlength
    have hword : cycle refDecoder s = applyWord w s.mem.read s := by
      rw [cycle_running _ s hrun, lookup_refDecoder, List.getD_eq_getElem?_getD,
        ← List.head?_drop, hws]
      rfl
    rw [applyWords_cons_running _ _ _ _ hrun, ← hword, List.length_cons, cycles_succ]
    cases rest with
    | nil => rfl
    | cons v rest =>
      rw [List.length_cons] at hlength
      obtain ⟨hrun', hir', hstep'⟩ := cycles_inside_program s 1 hrun hdef hstep (by omega)
      rw [cycles_succ, cycles_zero] at hrun' hir' hstep'
      rw [ih (cycle refDecoder s) hrun' (hir' ▸ hdef) (by omega), cycle_mem]
      rw [hir', hstep', ← List.drop_drop, hws, List.drop_one, List.tail_cons]

/-- The opcode byte of an instruction that is held at `PC`. -/
theorem read_pc_of_holdsAtPc (i : Instr) (s : State) (h : HoldsAtPc i s) :
    s.mem.read s.pc = (encode i).headD 0#8 := by
  obtain ⟨rest, hbytes⟩ := (holdsAtPc_iff i s).mp h
  exact (headD_encode_eq_of_append_eq i _ _ _ hbytes).symm

/-- The first two words of a run with memory on the port: the fetch of `cycles_two_of_fetch`. -/
theorem applyWords_microprogramOf_eq_afterFetch (i : Instr) (s : State) (hrun : s.halted = false)
    (hstep : s.stepCtr = 0) :
    applyWords s.mem.read (microprogramOf i) s =
      applyWords s.mem.read ((microprogramOf i).drop 2) (afterFetch s) := by
  obtain ⟨ws, hws⟩ : ∃ ws,
      microprogramOf i = wordOf [.pco, .mari] :: wordOf [.mo, .iri] :: ws := by
    cases i <;> exact ⟨_, rfl⟩
  simp [hws, applyWords_cons_running, applyWord_pco_mari, applyWord_mo_iri, afterFetch, hrun,
    hstep]

theorem two_lt_cyclesOf (i : Instr) : 2 < cyclesOf i := by
  cases i <;> exact of_decide_eq_true rfl

theorem cyclesOf_le_eight (i : Instr) : cyclesOf i ≤ 8 := by
  cases i <;> exact of_decide_eq_true rfl

/-- At a boundary with the instruction at `PC`, as many cycles as it has words lead to the state it
leaves, and `STEP` is not 0 before. -/
theorem completesIn_cyclesOf (i : Instr) (s : State) (hboundary : atBoundary s = true)
    (hholds : HoldsAtPc i s) : CompletesIn (cyclesOf i) s (stateAfter i s) := by
  obtain ⟨hstep, hrun, hdef⟩ := (atBoundary_iff s).mp hboundary
  have hprog : microprogramOfOpcode (afterFetch s).ir = microprogramOf i := by
    rw [← microprogramOfOpcode_encode, ← read_pc_of_holdsAtPc i s hholds]
    rfl
  have hdef' : defines refDecoder (afterFetch s).ir = true := by
    change defines refDecoder (s.mem.read s.pc) = true
    rw [read_pc_of_holdsAtPc i s hholds]
    exact defines_encode i
  have htwo := cycles_two_of_fetch s hrun hdef hstep
  refine ⟨?_, stateAfter_stepCtr i s, fun k hpos hk => ?_⟩
  · calc cycles refDecoder (cyclesOf i) s
        = cycles refDecoder ((microprogramOf i).drop 2).length (afterFetch s) := by
          rw [← htwo, ← cycles_add, List.length_drop]
          exact congrArg (cycles refDecoder · s) (Nat.add_sub_of_le (two_lt_cyclesOf i).le).symm
      _ = applyWords s.mem.read ((microprogramOf i).drop 2) (afterFetch s) :=
          cycles_eq_applyWords _ (afterFetch s) hrun hdef' le_rfl
            (congrArg (List.drop 2) hprog)
      _ = runMicroprogram (encode i) (microprogramOf i) s := by
          rw [runMicroprogram, portShowing_eq_read i s hholds,
            applyWords_microprogramOf_eq_afterFetch i s hrun hstep]
      _ = stateAfter i s := runMicroprogram_eq_stateAfter i s hrun
  · rcases Nat.lt_or_ge k 2 with hone | hge
    · obtain rfl : k = 1 := by omega
      rw [cycles_one_of_fetch s hrun hdef hstep]
      exact Nat.one_ne_zero
    · obtain ⟨j, rfl⟩ := Nat.exists_eq_add_of_le hge
      obtain ⟨-, -, hcount⟩ := cycles_inside_program (afterFetch s) j hrun hdef' le_rfl
        (by rw [hprog]; exact hk)
      rw [cycles_add, htwo, hcount]
      change 2 + j ≠ 0
      omega

/-! ## The six instructions -/

/-- What each of the six statements says of its instruction. -/
theorem exec_step_completesIn (i : Instr) (s : State) (hrun : s.halted = false) :
    exec i s = .next (stateAfter i s) ∧
      (atBoundary s = true → HoldsAtPc i s →
        step s = .next (stateAfter i s) ∧ CompletesIn (cyclesOf i) s (stateAfter i s)) := by
  refine ⟨exec_running i s hrun, fun hboundary hholds => ⟨?_, ?_⟩⟩
  · rw [step_of_fetched_some s i hrun
      ((fetched_eq_some_iff_holdsAtPc s i).mpr ⟨hboundary, hholds⟩), exec_running i s hrun]
  · exact completesIn_cyclesOf i s hboundary hholds

/-- Settles O1: two bytes at `PC`, and the state `stateAfter` gives for `LDI`. -/
theorem ldiLoadsItsOperand : Obligations.LdiLoadsItsOperand := by
  unfold Obligations.LdiLoadsItsOperand
  rintro imm s _ hrun rfl
  obtain ⟨hexec, hstep⟩ := exec_step_completesIn (.ldi imm) s hrun
  exact ⟨hexec, fun hb h0 h1 => hstep hb ((memHolds_two _ _ _ _).mpr ⟨h0, h1⟩)⟩

/-- Settles O2: as O1, with the sum for the operand. -/
theorem adiAddsItsOperand : Obligations.AdiAddsItsOperand := by
  unfold Obligations.AdiAddsItsOperand
  rintro imm s _ hrun rfl
  obtain ⟨hexec, hstep⟩ := exec_step_completesIn (.adi imm) s hrun
  exact ⟨hexec, fun hb h0 h1 => hstep hb ((memHolds_two _ _ _ _).mpr ⟨h0, h1⟩)⟩

/-- Settles O3: one byte at `PC`, and no result that `ZF` could follow. -/
theorem incIncrementsAndKeepsZf : Obligations.IncIncrementsAndKeepsZf := by
  unfold Obligations.IncIncrementsAndKeepsZf
  rintro s _ hrun rfl
  obtain ⟨hexec, hstep⟩ := exec_step_completesIn .inc s hrun
  exact ⟨hexec, fun hb h0 => hstep hb ((memHolds_one _ _ _).mpr h0)⟩

/-- Settles O4: as O1, with the operand for `PC`. -/
theorem jmpSetsPcToItsOperand : Obligations.JmpSetsPcToItsOperand := by
  unfold Obligations.JmpSetsPcToItsOperand
  rintro target s _ hrun rfl
  obtain ⟨hexec, hstep⟩ := exec_step_completesIn (.jmp target) s hrun
  exact ⟨hexec, fun hb h0 h1 => hstep hb ((memHolds_two _ _ _ _).mpr ⟨h0, h1⟩)⟩

/-- Settles O5: the `p` of the statement is `jzTarget`. -/
theorem jzSkipsOneByteIffZf : Obligations.JzSkipsOneByteIffZf := by
  unfold Obligations.JzSkipsOneByteIffZf
  rintro s _ _ hrun rfl rfl
  obtain ⟨hexec, hstep⟩ := exec_step_completesIn .jz s hrun
  exact ⟨hexec, fun hb h0 => hstep hb ((memHolds_one _ _ _).mpr h0)⟩

/-- Settles O6: the state after `HLT` is halted, so it is final (R80). -/
theorem hltHaltsForGood : Obligations.HltHaltsForGood := by
  unfold Obligations.HltHaltsForGood
  rintro s _ hrun rfl
  obtain ⟨hexec, hstep⟩ := exec_step_completesIn .hlt s hrun
  exact ⟨hexec, fun n => cycles_halted refDecoder n _ rfl, step_halted _ rfl,
    fun hb h0 => hstep hb ((memHolds_one _ _ _).mpr h0)⟩

/-- A cell that is not listed reads as unset (R34). -/
theorem Memory.read_of_not_listed (m : Memory) (a : Addr) (h : ∀ c ∈ m, c.1 ≠ a.toNat) :
    m.read a = unsetByte := by
  unfold Memory.read
  induction m with
  | nil => rfl
  | cons c rest ih =>
    obtain ⟨hc, hrest⟩ := List.forall_mem_cons.mp h
    rw [Memory.readAt, if_neg hc.symm]
    exact ih hrest

/-- Settles O43: two unset cells are the bytes of `LDI 0` (R143). -/
theorem unsetMemoryRunsAsLdiZero : Obligations.UnsetMemoryRunsAsLdiZero := by
  unfold Obligations.UnsetMemoryRunsAsLdiZero
  rintro s _ hboundary h0 h1 rfl
  obtain ⟨-, hrun, -⟩ := (atBoundary_iff s).mp hboundary
  obtain ⟨-, hstep⟩ := exec_step_completesIn (.ldi 0x00#8) s hrun
  have hafter : step s = .next (stateAfter (.ldi 0x00#8) s) ∧
      CompletesIn 6 s (stateAfter (.ldi 0x00#8) s) :=
    hstep hboundary ((memHolds_two _ _ _ _).mpr
      ⟨Memory.read_of_not_listed _ _ h0, Memory.read_of_not_listed _ _ h1⟩)
  simpa [stateAfter] using hafter

end Sys2Proof.Machine
end

section
/-! SUPPORT. Proofs of the statements about steps and runs of steps: a step is a number of cycles,
so what every cycle keeps every step keeps, and a run of steps is a run of cycles. -/

namespace Sys2Proof.Machine

/-! ## A step as a number of cycles -/

/-- How many cycles the step from a state takes: those of the fetched instruction, else one. -/
def stepCycles (s : State) : Nat := ((fetched s).map cyclesOf).getD 1

theorem step_eq_cycles (s : State) : step s = .next (cycles refDecoder (stepCycles s) s) := by
  unfold stepCycles
  cases hrun : s.halted with
  | true => rw [step_halted s hrun, cycles_halted refDecoder _ s hrun]
  | false =>
    cases hf : fetched s with
    | none => exact step_of_fetched_none s hrun hf
    | some i =>
      obtain ⟨hboundary, hholds⟩ := (fetched_eq_some_iff_holdsAtPc s i).mp hf
      obtain ⟨hcycles, -⟩ := completesIn_cyclesOf i s hboundary hholds
      rw [step_of_fetched_some s i hrun hf, exec_running i s hrun, ← hcycles]
      rfl

/-- Settles O11: `stepCycles` is the number of the statement. -/
theorem stepIsAWholeNumberOfCycles : Obligations.StepIsAWholeNumberOfCycles := by
  unfold Obligations.StepIsAWholeNumberOfCycles
  exact step_eq_cycles

/-- Settles O12: a step is a run of cycles and an instruction a run of words, and both answer. -/
theorem nothingFaultsOrStops : Obligations.NothingFaultsOrStops := by
  unfold Obligations.NothingFaultsOrStops
  exact ⟨fun s => ⟨_, step_eq_cycles s⟩, fun i s => ⟨_, exec_eq_next_runMicroprogram i s⟩⟩

/-- What every cycle keeps, every step keeps. -/
theorem step_keeps_of_cycles_keep {P : State → Prop} (s t : State)
    (h : ∀ n, P (cycles refDecoder n s)) (hstep : step s = .next t) : P t := by
  rw [step_eq_cycles] at hstep
  cases hstep
  exact h _

/-- Settles O14: a step is a number of cycles, each of which keeps the invariant. -/
theorem everyStepKeepsTheMachineInvariant : Obligations.EveryStepKeepsTheMachineInvariant := by
  unfold Obligations.EveryStepKeepsTheMachineInvariant
  exact fun s t h => step_keeps_of_cycles_keep s t h.cycles

/-! ## Runs of steps and runs of cycles -/

theorem stepCycles_pos (s : State) : 0 < stepCycles s := by
  unfold stepCycles
  cases fetched s with
  | none => exact Nat.one_pos
  | some i => exact (two_lt_cyclesOf i).trans' (by decide)

theorem stepCycles_le_eight (s : State) : stepCycles s ≤ 8 := by
  unfold stepCycles
  cases fetched s with
  | none => exact (by decide : 1 ≤ 8)
  | some i => exact cyclesOf_le_eight i

/-- A run goes on after a step that answers a next state. -/
theorem run_succ_of_step (M : Host.Core) (k : Nat) (s t : M.State) (h : M.step s = .next t) :
    M.run (k + 1) s = M.run k t := by
  rw [Host.Core.run, h]

theorem core_run_succ (k : Nat) (s : State) :
    core.run (k + 1) s = core.run k (cycles refDecoder (stepCycles s) s) :=
  run_succ_of_step core k s _ (step_eq_cycles s)

/-- A run of `k + 1` steps is a run of `k`, then one more. -/
theorem core_run_succ_last (k : Nat) (s u : State) (h : core.run k s = .next u) :
    core.run (k + 1) s = .next (cycles refDecoder (stepCycles u) u) := by
  induction k generalizing s with
  | zero =>
    cases h
    exact core_run_succ 0 _
  | succ k ih =>
    rw [core_run_succ] at h ⊢
    exact ih _ h

/-- A run of `k` steps is a run of at least `k` cycles. -/
theorem exists_core_run_eq_cycles (k : Nat) (s : State) :
    ∃ n, k ≤ n ∧ core.run k s = .next (cycles refDecoder n s) := by
  induction k generalizing s with
  | zero => exact ⟨0, le_rfl, rfl⟩
  | succ k ih =>
    obtain ⟨n, hle, hrun⟩ := ih (cycles refDecoder (stepCycles s) s)
    have hpos := stepCycles_pos s
    refine ⟨stepCycles s + n, by omega, ?_⟩
    rw [core_run_succ, hrun, cycles_add]

/-- Past any number of cycles a step ends within eight: where the last step ended at exactly `n`
cycles, one more step is taken. -/
theorem exists_core_run_within_eight (n : Nat) (s : State) :
    ∃ k m, k ≤ m ∧ n ≤ m ∧ m < n + 8 ∧ core.run k s = .next (cycles refDecoder m s) := by
  induction n with
  | zero => exact ⟨0, 0, le_rfl, le_rfl, by decide, rfl⟩
  | succ n ih =>
    obtain ⟨k, m, hkm, hnm, hmn, hrun⟩ := ih
    rcases Nat.lt_or_ge n m with hlt | hge
    · exact ⟨k, m, hkm, hlt, by omega, hrun⟩
    · have hpos := stepCycles_pos (cycles refDecoder m s)
      have hle := stepCycles_le_eight (cycles refDecoder m s)
      refine ⟨k + 1, m + stepCycles (cycles refDecoder m s), by omega, by omega, by omega, ?_⟩
      rw [core_run_succ_last k s _ hrun, cycles_add]

/-- Settles O53: the two directions, each by induction on the length of its run. -/
theorem runsOfStepsAreRunsOfCycles : Obligations.RunsOfStepsAreRunsOfCycles := by
  unfold Obligations.RunsOfStepsAreRunsOfCycles
  simp only [microCore_run]
  exact ⟨exists_core_run_eq_cycles, exists_core_run_within_eight⟩

/-! ## The zero flag under `REF_DECODER` -/

theorem has_zfc_lookup_refDecoder (k : Nat) (op : Byte) :
    has (lookup refDecoder k op) .zfc = false := by
  refine Bool.eq_false_iff.mpr fun h => ?_
  obtain ⟨e, he, -, -, hzfc⟩ := exists_entry_of_has_lookup _ _ _ _ h
  obtain ⟨hnot, -⟩ := refDecoder_zfc_zfs_step e he
  exact Bool.false_ne_true (hnot.symm.trans hzfc)

theorem cycles_zf_of_set (n : Nat) (s : State) (h : s.zf = true) :
    (cycles refDecoder n s).zf = true := by
  induction n generalizing s with
  | zero => exact h
  | succ n ih =>
    refine ih (cycle refDecoder s) ?_
    cases hrun : s.halted with
    | true => rwa [cycle_halted refDecoder s hrun]
    | false =>
      rw [cycle_running refDecoder s hrun]
      exact applyWord_zf_of_set _ _ s h (has_zfc_lookup_refDecoder _ _)

/-- Settles O38: no word of `REF_DECODER` asserts `ZFC`. -/
theorem zfStaysSetUntilReset : Obligations.ZfStaysSetUntilReset := by
  unfold Obligations.ZfStaysSetUntilReset
  exact ⟨fun s n h => cycles_zf_of_set n s h, fun s t h =>
    step_keeps_of_cycles_keep (P := fun u => u.zf = true) s t fun n => cycles_zf_of_set n s h⟩

/-- From a boundary with `JZ` at `PC` eight cycles run it (R107). -/
theorem cycles_eight_of_jz (s : State) (hboundary : atBoundary s = true)
    (hop : s.mem.read s.pc = 0x05#8) : cycles refDecoder 8 s = stateAfter .jz s :=
  (completesIn_cyclesOf .jz s hboundary ((memHolds_one _ _ _).mpr hop)).1

/-- Settles O39: the first `JZ` leaves `ZF` set, it stays set, and a `JZ` under a set `ZF` skips. -/
theorem everyJzAfterTheFirstSkips : Obligations.EveryJzAfterTheFirstSkips := by
  unfold Obligations.EveryJzAfterTheFirstSkips
  rintro s _ n hboundary hop rfl hboundary' hop'
  have hset : (cycles refDecoder (8 + n) s).zf = true := by
    rw [cycles_add, cycles_eight_of_jz s hboundary hop]
    exact cycles_zf_of_set n _ rfl
  rw [cycles_eight_of_jz _ hboundary' hop']
  exact if_pos hset

end Sys2Proof.Machine
end

section
/-! SUPPORT. Proofs of the statements about tables in general: keys without an entry, the ROM, the
saturating step counter, and halted machines under any table. -/

namespace Sys2Proof.Machine

/-! ## Keys with and without an entry -/

/-- Under unique keys the first entry that fits a key is the only one (R50). -/
theorem lookup_of_mem (t : DecoderTable) (e : DecoderEntry) (huniq : t.KeysUnique) (he : e ∈ t) :
    lookup t e.step e.opcode = e.word := by
  induction t with
  | nil => cases he
  | cons d rest ih =>
    obtain ⟨hd, hrest⟩ := List.pairwise_cons.mp huniq
    rcases List.mem_cons.mp he with rfl | he
    · exact if_pos ⟨rfl, rfl⟩
    · rw [lookup, if_neg (hd e he)]
      exact ih hrest he

/-- A ROM word is the table's word at the key its address spells, or empty. -/
theorem romContents_of_no_entry (bits : Nat) (t : DecoderTable) (a : BitVec (bits + 8))
    (h : ∀ e ∈ t, ¬(e.step = a.toNat / 256 ∧ e.opcode.toNat = a.toNat % 256)) :
    romContents bits t a = emptyWord := by
  have hlookup : lookup t (a.toNat / 256) (BitVec.ofNat 8 a.toNat) = emptyWord :=
    lookup_of_no_entry t _ _ fun e he hkey =>
      h e he ⟨hkey.1, (congrArg BitVec.toNat hkey.2).trans (BitVec.toNat_ofNat _ _)⟩
  rw [romContents, romLookup, hlookup, ite_self]

/-- Settles O26: a lookup that fits no entry falls through to the empty word, and under unique keys
one that fits an entry cannot stop at another. -/
theorem missingKeyIsANoOp : Obligations.MissingKeyIsANoOp := by
  unfold Obligations.MissingKeyIsANoOp
  refine ⟨fun dec s h => ?_, fun dec bits a h => romContents_of_no_entry bits dec a h,
    lookup_of_mem⟩
  have hempty := lookup_of_no_entry dec s.stepCtr s.ir h
  exact ⟨hempty, fun hrun => cycle_of_lookup_empty dec s hrun hempty⟩

/-- Settles O31: after reset `IR` is 0x00, whose column is empty, so the machine idles from
`STEP` 0 on. -/
theorem tableWithoutOpcodeZeroNeverFetches : Obligations.TableWithoutOpcodeZeroNeverFetches := by
  unfold Obligations.TableWithoutOpcodeZeroNeverFetches
  exact fun dec m hdef => idlesForEver_of_lookup_empty dec (State.resetWith m) rfl
    fun k _ => lookup_undefined dec k 0x00#8 hdef

/-- Settles O32: above the last entry of its column every word is empty. -/
theorem runningPastAMicroprogramIdles : Obligations.RunningPastAMicroprogramIdles := by
  unfold Obligations.RunningPastAMicroprogramIdles
  intro dec s hrun hpast
  have hidle : IdlesForEver dec s := idlesForEver_of_lookup_empty dec s hrun fun k hk =>
    lookup_of_no_entry dec k s.ir fun e he hkey => by
      have := hpast e he hkey.2
      omega
  exact ⟨hidle, not_halts_of_idlesForEver dec s hrun hidle⟩

/-! ## The saturating counter (R7) -/

/-- With nothing at the highest index, the ROM answers the saturated count as the table does the
count itself: the two differ only where both words are empty. -/
theorem romLookup_saturate (bits : Nat) (t : DecoderTable) (k : Nat) (op : Byte)
    (h : t.StepsBelow (2 ^ bits - 1)) : romLookup bits t (saturate bits k) op = lookup t k op := by
  unfold romLookup saturate
  rcases Nat.lt_or_ge k (2 ^ bits - 1) with hlt | hge
  · rw [Nat.min_eq_left hlt.le, if_pos hlt]
  · rw [Nat.min_eq_right hge, if_neg (Nat.lt_irrefl _)]
    refine (lookup_of_no_entry t k op fun e he hkey => ?_).symm
    have := h e he
    omega

theorem saturate_lt (bits k : Nat) : saturate bits k < 2 ^ bits := by
  have := Nat.two_pow_pos bits
  unfold saturate
  omega

@[simp] theorem saturate_zero (bits : Nat) : saturate bits 0 = 0 := Nat.zero_min _

/-- Counting on from a saturated count and saturating again loses nothing. -/
theorem saturate_saturate_succ (bits k : Nat) :
    saturate bits (saturate bits k + 1) = saturate bits (k + 1) := by
  unfold saturate
  omega

/-! ### The ROM at its address -/

/-- The address is the saturated step followed by the eight bits of `IR` (R50). -/
theorem romAddr_toNat (bits : Nat) (s : State) :
    (romAddr bits s).toNat = saturate bits s.stepCtr * 256 + s.ir.toNat := by
  rw [romAddr, BitVec.toNat_append, stepPort, BitVec.toNat_ofNat,
    Nat.mod_eq_of_lt (saturate_lt bits s.stepCtr), ← Nat.shiftLeft_add_eq_or_of_lt s.ir.isLt,
    Nat.shiftLeft_eq]

/-- Settles O47: the address spells the saturated step and `IR`. -/
theorem romAtItsAddressHoldsTheTablesWord : Obligations.RomAtItsAddressHoldsTheTablesWord := by
  unfold Obligations.RomAtItsAddressHoldsTheTablesWord
  intro bits dec s hbelow
  refine ⟨?_, romAddr_toNat bits s⟩
  have hir := s.ir.isLt
  have hstep : (romAddr bits s).toNat / 256 = saturate bits s.stepCtr := by
    rw [romAddr_toNat]
    omega
  have hop : BitVec.ofNat 8 (romAddr bits s).toNat = s.ir := by
    refine BitVec.eq_of_toNat_eq ?_
    rw [BitVec.toNat_ofNat, romAddr_toNat]
    omega
  rw [romContents, hstep, hop, romLookup_saturate bits dec s.stepCtr s.ir hbelow]

/-! ### The physical block follows the machine -/

/-- Saturation as a map of states: what the physical block holds for a state of the machine. -/
def saturated (bits : Nat) (s : State) : State := s.setStep (saturate bits s.stepCtr)

/-- Of the effects of a word only the step advance looks at `STEP`. -/
theorem applyWord_setStep (cw : ControlWord) (port : Addr → Byte) (s : State) (k : Nat) :
    applyWord cw port (s.setStep k) =
      (applyWord cw port s).setStep (if has cw .sr then 0 else k + 1) := by
  rw [applyWord_eq_chain, applyWord_eq_chain]
  rfl

/-- One cycle of the physical block from the saturated state is the saturated cycle. -/
theorem physicalCycle_saturated (bits : Nat) (dec : DecoderTable) (s : State)
    (h : dec.StepsBelow (2 ^ bits - 1)) :
    physicalCycle bits dec (saturated bits s) = saturated bits (cycle dec s) := by
  cases hrun : s.halted with
  | true =>
    rw [cycle_halted dec s hrun]
    exact if_pos hrun
  | false =>
    rw [cycle_running dec s hrun]
    have hword := romLookup_saturate bits dec s.stepCtr s.ir h
    simp only [physicalCycle, saturated, State.setStep_halted, hrun, State.setStep_stepCtr,
      State.setStep_ir, State.setStep_mem, hword, applyWord_setStep, applyWord_stepCtr,
      Bool.false_eq_true, if_false]
    cases has (lookup dec s.stepCtr s.ir) .sr with
    | true => rfl
    | false =>
      simp only [Bool.false_eq_true, if_false, saturate_saturate_succ]
      rfl

theorem physicalCycles_saturated (bits : Nat) (dec : DecoderTable) (n : Nat) (s : State)
    (h : dec.StepsBelow (2 ^ bits - 1)) :
    physicalCycles bits dec n (saturated bits s) = saturated bits (cycles dec n s) := by
  induction n generalizing s with
  | zero => rfl
  | succ n ih => rw [physicalCycles, physicalCycle_saturated bits dec s h, ih, cycles_succ]

theorem saturated_resetWith (bits : Nat) (m : Memory) :
    saturated bits (State.resetWith m) = State.resetWith m := by
  rw [saturated, State.resetWith_stepCtr, saturate_zero]
  rfl

/-- No entry of `REF_DECODER` is above step 7, so four bits leave the highest index empty. -/
theorem refDecoder_stepsBelow (bits : Nat) (h : 4 ≤ bits) :
    refDecoder.StepsBelow (2 ^ bits - 1) := by
  intro e he
  obtain ⟨-, -, hstep⟩ := refDecoder_zfc_zfs_step e he
  have hpow : 2 ^ 4 ≤ 2 ^ bits := Nat.pow_le_pow_right (by decide) h
  omega

/-- Settles O48: saturation commutes with every cycle; the configured width has four bits or
more. -/
theorem saturatingCounterIsInvisible : Obligations.SaturatingCounterIsInvisible := by
  unfold Obligations.SaturatingCounterIsInvisible
  refine ⟨fun bits dec s n h => physicalCycles_saturated bits dec n s h, refDecoder_stepsBelow,
    fun m n => ?_⟩
  have hwidth : 4 ≤ Config.stepBits := Nat.le_add_right 4 _
  have hrun := physicalCycles_saturated Config.stepBits refDecoder n (State.resetWith m)
    (refDecoder_stepsBelow _ hwidth)
  rwa [saturated_resetWith] at hrun

/-! ## Halted machines -/

theorem clockEdges_replicate_false (dec : DecoderTable) (n : Nat) (s : State) :
    clockEdges dec (List.replicate n false) s = cycles dec n s := by
  induction n generalizing s with
  | zero => rfl
  | succ n ih => rw [List.replicate_succ, clockEdges_cons, clockEdge_false, ih, cycles_succ]

theorem trace_halted (dec : DecoderTable) (n : Nat) (s : State) (h : s.halted = true) :
    trace dec n s = [] := by
  cases n with
  | zero => rfl
  | succ n => simp [trace, h]

theorem runLoop_halted (dec : DecoderTable) (budget n : Nat) (s : State) (h : s.halted = true) :
    runLoop dec budget n s = ⟨s, n, true⟩ := by
  cases budget with
  | zero => rw [runLoop_zero, h]
  | succ budget => exact runLoop_succ_halted dec budget n s h

/-- Settles O40: cycles, edges, steps, trace and run loop all test `HALTED` first; reset does
not. -/
theorem haltedStateIsFinal : Obligations.HaltedStateIsFinal := by
  unfold Obligations.HaltedStateIsFinal
  intro dec s n k h
  have hcycles := cycles_halted dec n s h
  refine ⟨hcycles, ?_, step_halted s h, trace_halted dec n s h, ?_, ?_, ?_⟩
  · rw [clockEdges_replicate_false, hcycles]
  · rw [runLoop_halted dec n k s h]
  · rw [runLoop_halted dec n k s h]
  · rw [clockEdge_true, State.resetWith_halted]

end Sys2Proof.Machine
end

section
/-! SUPPORT. Proofs of the statements about the loader and the assembler: what a cell reads after
the entries of an image have been stored, and the image of an assembled program. -/

namespace Sys2Proof.Machine

/-! ## The loader -/

/-- A cell the image does not give keeps its content. -/
theorem readAt_storeEntries_other (img : Image) (m : Memory) (a : Nat)
    (h : ∀ e ∈ img, e.addr ≠ a) :
    Memory.readAt (storeEntries img m) a = Memory.readAt m a := by
  induction img generalizing m with
  | nil => rfl
  | cons e rest ih =>
    obtain ⟨he, hrest⟩ := List.forall_mem_cons.mp h
    rw [storeEntries, ih _ hrest, Memory.readAt_writeAt_other m e.addr a _ he.symm]

/-- A cell the image gives reads the image's byte: no later entry has its address. -/
theorem readAt_storeEntries_of_mem (img : Image) (m : Memory) (e : ImageEntry)
    (hm : m.wf) (haddr : ∀ d ∈ img, d.addr < 256)
    (hdistinct : img.Pairwise (fun a b => a.addr ≠ b.addr)) (he : e ∈ img) :
    Memory.readAt (storeEntries img m) e.addr = BitVec.ofNat 8 e.value := by
  induction img generalizing m with
  | nil => cases he
  | cons d rest ih =>
    obtain ⟨hd, hrest⟩ := List.forall_mem_cons.mp haddr
    obtain ⟨hfirst, hdistinct'⟩ := List.pairwise_cons.mp hdistinct
    rw [storeEntries]
    rcases List.mem_cons.mp he with rfl | he
    · rw [readAt_storeEntries_other rest _ e.addr fun c hc => (hfirst c hc).symm,
        Memory.readAt_writeAt_same m e.addr _ hm]
    · exact ih _ (Memory.writeAt_wf m d.addr _ hd hm) hrest hdistinct' he

/-- The check of the loader, written out (R34). -/
theorem Image.wf_iff (img : Image) :
    img.wf = true ↔ (∀ e ∈ img, e.addr < 256 ∧ e.value < 256) ∧
      img.Pairwise (fun a b => a.addr ≠ b.addr) := by
  simp [Image.wf, ImageEntry.wf]

theorem loadImage_eq_some_iff (img : Image) (m : Memory) :
    loadImage img = some m ↔ img.wf = true ∧ m = storeEntries img [] := by
  unfold loadImage
  split
  · next h => simp [h, eq_comm]
  · next h => simp [h]

theorem loadImage_eq_none_iff (img : Image) : loadImage img = none ↔ ¬ img.wf = true := by
  simp [loadImage]

theorem loadImage_wf (img : Image) (m : Memory) (h : loadImage img = some m) : m.wf := by
  obtain ⟨hwf, rfl⟩ := (loadImage_eq_some_iff img m).mp h
  obtain ⟨hrange, -⟩ := (Image.wf_iff img).mp hwf
  exact storeEntries_wf img [] (fun e he => (hrange e he).1) Memory.nil_wf

/-- After loading, the cell of an entry reads the entry's byte. -/
theorem loadImage_read_of_mem (img : Image) (m : Memory) (e : ImageEntry)
    (h : loadImage img = some m) (he : e ∈ img) :
    m.read (BitVec.ofNat 8 e.addr) = BitVec.ofNat 8 e.value := by
  obtain ⟨hwf, rfl⟩ := (loadImage_eq_some_iff img m).mp h
  obtain ⟨hrange, hdistinct⟩ := (Image.wf_iff img).mp hwf
  rw [Memory.read, BitVec.toNat_ofNat, Nat.mod_eq_of_lt (hrange e he).1]
  exact readAt_storeEntries_of_mem img [] e Memory.nil_wf (fun d hd => (hrange d hd).1)
    hdistinct he

/-- After loading, a cell the image does not give reads 0. -/
theorem loadImage_read_other (img : Image) (m : Memory) (a : Addr) (h : loadImage img = some m)
    (ha : ∀ e ∈ img, e.addr ≠ a.toNat) : m.read a = 0x00#8 := by
  obtain ⟨-, rfl⟩ := (loadImage_eq_some_iff img m).mp h
  exact readAt_storeEntries_other img [] a.toNat ha

/-- Settles O42: what a load leaves in the cells of the image and in the others, and the loader's
check read in both directions. -/
theorem loaderInitialisesEveryCell : Obligations.LoaderInitialisesEveryCell := by
  unfold Obligations.LoaderInitialisesEveryCell
  refine ⟨fun img m h => ⟨loadImage_wf img m h, fun e he => loadImage_read_of_mem img m e h he,
    fun a ha => loadImage_read_other img m a h ha⟩, ?_, ?_⟩
  · rintro img ⟨e, he, hlarge⟩
    refine (loadImage_eq_none_iff img).mpr fun hwf => ?_
    obtain ⟨hrange, -⟩ := (Image.wf_iff img).mp hwf
    obtain ⟨haddr, hvalue⟩ := hrange e he
    omega
  · intro img hrange hdistinct
    exact ⟨_, (loadImage_eq_some_iff img _).mpr
      ⟨(Image.wf_iff img).mpr ⟨hrange, hdistinct⟩, rfl⟩⟩

/-! ## The assembler -/

/-- The operand of a statement is a byte's value, so it is in range (R60). -/
theorem stmtOf_wf (i : Instr) : (stmtOf i).wf = true := by
  have hrange : ∀ b : Byte, b.toNat < 256 := fun b => b.isLt
  cases i <;> simp [stmtOf, Stmt.wf, Mnemonic.hasOperand, hrange]

theorem encode_length (i : Instr) : (encode i).length = i.length := by
  obtain ⟨-, hlength, -⟩ := roundTrip i
  exact hlength

/-- The statement of an instruction assembles to the instruction's bytes (R60). -/
theorem assembleFrom_stmtOf_cons (a : Nat) (i : Instr) (prog : List Stmt) :
    assembleFrom a (stmtOf i :: prog) =
      (assembleFrom (a + i.length) prog).map (entriesAt a (encode i) ++ ·) := by
  have hwf := stmtOf_wf i
  cases i <;> simp only [stmtOf] at hwf ⊢ <;> simp [assembleFrom, hwf, instrOf]

theorem entriesAt_append (a : Nat) (bs cs : List Byte) :
    entriesAt a (bs ++ cs) = entriesAt a bs ++ entriesAt (a + bs.length) cs := by
  induction bs generalizing a with
  | nil => rfl
  | cons b bs ih =>
    rw [List.cons_append, entriesAt, ih, entriesAt, List.cons_append, List.length_cons,
      Nat.add_assoc, Nat.add_comm 1]

theorem assembleFrom_map_stmtOf (a : Nat) (prog : List Instr) :
    assembleFrom a (prog.map stmtOf) = some (entriesAt a (prog.flatMap encode)) := by
  induction prog generalizing a with
  | nil => rfl
  | cons i prog ih =>
    rw [List.map_cons, assembleFrom_stmtOf_cons, ih, List.flatMap_cons, entriesAt_append,
      encode_length, Option.map_some]

/-- The entries are the bytes at their addresses. -/
theorem mem_entriesAt_iff (a : Nat) (bs : List Byte) (e : ImageEntry) :
    e ∈ entriesAt a bs ↔ ∃ k, ∃ h : k < bs.length, e = ⟨a + k, bs[k].toNat⟩ := by
  induction bs generalizing a with
  | nil => simp [entriesAt]
  | cons b bs ih =>
    rw [entriesAt, List.mem_cons, ih]
    constructor
    · rintro (rfl | ⟨k, hk, rfl⟩)
      · exact ⟨0, Nat.zero_lt_succ _, rfl⟩
      · exact ⟨k + 1, Nat.succ_lt_succ hk, by simp [Nat.add_assoc, Nat.add_comm 1]⟩
    · rintro ⟨k, hk, rfl⟩
      cases k with
      | zero => exact .inl rfl
      | succ k =>
        exact .inr ⟨k, Nat.lt_of_succ_lt_succ hk, by simp [Nat.add_assoc, Nat.add_comm 1]⟩

theorem entriesAt_pairwise (a : Nat) (bs : List Byte) :
    (entriesAt a bs).Pairwise (fun d e => d.addr ≠ e.addr) := by
  induction bs generalizing a with
  | nil => exact List.Pairwise.nil
  | cons b bs ih =>
    refine List.pairwise_cons.mpr ⟨fun e he => ?_, ih (a + 1)⟩
    obtain ⟨k, -, rfl⟩ := (mem_entriesAt_iff (a + 1) bs e).mp he
    change a ≠ a + 1 + k
    omega

/-- At most 256 bytes from address 0 make an image the loader takes. -/
theorem entriesAt_wf (bs : List Byte) (h : bs.length ≤ 256) :
    Image.wf (entriesAt 0 bs) = true := by
  refine (Image.wf_iff _).mpr ⟨fun e he => ?_, entriesAt_pairwise 0 bs⟩
  obtain ⟨k, hk, rfl⟩ := (mem_entriesAt_iff 0 bs e).mp he
  exact ⟨by change 0 + k < 256; omega, bs[k].isLt⟩

/-- Loaded from address 0, every cell reads its byte, and 0 past the last. -/
theorem read_of_loadImage_entriesAt (bs : List Byte) (m : Memory) (a : Addr)
    (h : loadImage (entriesAt 0 bs) = some m) : m.read a = bs.getD a.toNat 0x00#8 := by
  rcases Nat.lt_or_ge a.toNat bs.length with hlt | hge
  · have hmem : ⟨0 + a.toNat, bs[a.toNat].toNat⟩ ∈ entriesAt 0 bs :=
      (mem_entriesAt_iff 0 bs _).mpr ⟨a.toNat, hlt, rfl⟩
    have hread := loadImage_read_of_mem _ m _ h hmem
    simpa [hlt] using hread
  · rw [List.getD_eq_default _ _ hge]
    refine loadImage_read_other _ m a h fun e he => ?_
    obtain ⟨k, hk, rfl⟩ := (mem_entriesAt_iff 0 bs e).mp he
    change 0 + k ≠ a.toNat
    omega

/-- Settles O52: the image is the program's bytes from address 0 on. -/
theorem assembledProgramLoadsItsBytes : Obligations.AssembledProgramLoadsItsBytes := by
  unfold Obligations.AssembledProgramLoadsItsBytes
  intro prog hlength
  have hload := (loadImage_eq_some_iff (entriesAt 0 (prog.flatMap encode)) _).mpr
    ⟨entriesAt_wf _ hlength, rfl⟩
  exact ⟨_, _, assembleFrom_map_stmtOf 0 prog, hload,
    fun a => read_of_loadImage_entriesAt _ _ a hload⟩

end Sys2Proof.Machine
end
